-- ==== Sys2Proof/Word.lean ====
section
/-! DEFINITION. The word types of the GY-MCU90640 frame engine (00_scope.md R9, R11). -/

namespace Sys2Proof

/-- A byte: one unit of a stream, of FB, of an operation word's field (R9). -/
abbrev Byte := BitVec 8

/-- A 16-bit operand, the IMM field of an operation word (R91). -/
abbrev Half := BitVec 16

/-- A temperature sample or range end: 16 bits read as two's complement, in centi-degrees (R11, R27). -/
abbrev Sample := BitVec 16

/-- A byte count of the receive procedure: the 11 bits of FLEN and RXTARGET (R30, R32). -/
abbrev Count := BitVec 11

/-- An operation word, a result value or an information word (R91, R108, R37). -/
abbrev Word := BitVec 32

end Sys2Proof
end

