-- ==== Sys2Proof/Config.lean ====
section
/-! DEFINITION. What is fixed for the hardware: the parameters of 00_scope.md R7 and R8. The lengths and addresses of R7
(1544, 768, 4, 1540, 2) stand as numerals where they are used. -/

namespace Sys2Proof.Config

/-- `PKT_HEADER`: first byte of every command packet (R7). -/
abbrev pktHeader : Byte := 0xA5

/-- `QMAX`: top of the quantiser's range (R7). -/
abbrev qmax : Int := 255

/-- `DEGEN_VALUE`: the byte of every cell when the range is zero (R8, R197). -/
abbrev degenValue : Byte := 128

/-- The wire opcode and payload of W.QEMIS (R99, R150). -/
abbrev qemisPacket : Byte × Byte := (0x55, 0x01)

/-- The wire opcode and payload of W.SETFPS8 (R99, R151). -/
abbrev setfps8Packet : Byte × Byte := (0x25, 0x04)

/-- The wire opcode and payload of W.START (R99, R152). -/
abbrev startPacket : Byte × Byte := (0x35, 0x02)

/-- The wire opcode and payload of W.STOP (R99, R153). -/
abbrev stopPacket : Byte × Byte := (0x35, 0x01)

/-- `BAUD_RATE` of the base configuration (R8). It only sets the reset value of the register BAUD: a claim
about every state holds for every rate (log entry 10). -/
def baudRate : Word := 115200

/-- `DEVICE_PATH`: an opaque argument of the model (R8); nothing can be proved of it (log entry 11). -/
opaque devicePath : String

/-- The character format of the line (R8 `UART_FORMAT`): read by no rule. -/
structure UartFormat where
  dataBits : Nat
  parity   : Bool
  stopBits : Nat
  lsbFirst : Bool
  deriving DecidableEq, Repr

/-- PRESUMED, safe: the spec's default, marked there as general knowledge (R8, D3); no definition reads it
(log entry 12). -/
def uartFormat : UartFormat := ⟨8, false, 1, true⟩

/-- `RX_TIMEOUT`: there is no bound on a blocking read (R8, R242). -/
def rxTimeout : Option Nat := none

end Sys2Proof.Config
end

