-- ==== Sys2Proof/Machine/State.lean ====
section
/-! DEFINITION. The state of the engine (10_state.md R20) and of what stands at its boundary (00_scope.md R6,
R14), as plain data; the reasons a step can stop; the state after reset (R44). -/

namespace Sys2Proof.Machine

/-- The frame buffer FB as (address, byte) pairs, addresses strictly rising (20_memory.md R60, R61). An unlisted
address has no value (R30, R262; log entry 2). -/
abbrev Memory := List Host.Cell

/-- CHSTATE (R31); the fourth code of its two bits is never taken. -/
inductive ChState
  | closed | opened | failed
  deriving DecidableEq, Repr

/-- An item of the RX stream: a byte, or the mark of a closed or erring channel (20_memory.md R65). -/
inductive RxItem
  | byte (b : Byte)
  | err
  deriving DecidableEq, Repr

/-- RXKIND (R32): what the read in progress does when it completes. -/
inductive RxKind
  | plain | emis
  deriving DecidableEq, Repr

/-- RXTARGET and RXKIND, which have a value only while PHASE = RXWAIT (R32, R44). -/
structure Receive where
  target : Count
  kind   : RxKind
  deriving DecidableEq, Repr

/-- The state SVALID guards (R35): AMB, S, TMIN, TMAX, RLO, RHI (R21 to R25, R27). -/
structure Decoded where
  amb     : BitVec 16
  samples : Vector Sample 768
  tmin    : Sample
  tmax    : Sample
  rlo     : Sample
  rhi     : Sample
  deriving DecidableEq, Repr

/-- The environment's answer to an OPEN (R14 `env_open`, 40_transport.md R131). A successful OPEN binds the
engine to the RX stream the environment then offers (20_memory.md R67; log entry 4). -/
inductive OpenAnswer
  | unavailable
  | available (offered : List RxItem)
  deriving DecidableEq, Repr

/-- What an OPEN hands to the environment (10_state.md R39, 40_transport.md R131). -/
structure OpenRequest where
  devicePath : String
  baudRate   : Word
  deriving DecidableEq, Repr

/-- The result of an operation (30_encoding.md R108). -/
structure OpResult where
  code : Byte
  val  : Word
  deriving DecidableEq, Repr

/-- A move of one of the three agents (00_scope.md R6) or of the reset line (70_reset_and_hazards.md R260). The order
of the moves is the schedule's (log entry 5). -/
inductive Move
  /-- The host hands over an operation word. -/
  | word (w : Word)
  /-- The host raises `abort` (60_exceptions.md R230). -/
  | abort
  /-- The environment adds an item at the end of RX (20_memory.md R65). -/
  | arrive (it : RxItem)
  /-- The engine makes the transition it has, if it has one: it takes an item in a receive (R137), or emits a packet it
  holds (log entry 7). -/
  | run
  /-- Reset (R260). -/
  | reset
  deriving DecidableEq, Repr

/-- The whole state. The first twelve fields are the engine's (R20); the valid bits SVALID, GVALID, EVALID and
PHASE are the presence of the state they guard (log entry 1). Then come its boundary and the model's `held`. -/
structure State where
  /-- CHSTATE (R31). -/
  chstate  : ChState
  /-- FB (R61). -/
  fb       : Memory
  /-- FLEN (R30). -/
  flen     : Count
  /-- SVALID and what it guards (R35). -/
  decoded  : Option Decoded
  /-- GVALID and G (R35, R28). -/
  grid     : Option (Vector Byte 768)
  /-- EVALID and EMIS (R35, R26). -/
  emis     : Option Byte
  /-- ECAUSE (R36). -/
  ecause   : Byte
  /-- EINFO (R37). -/
  einfo    : Word
  /-- EFLAGS (R38). -/
  eflags   : Byte
  /-- PHASE, RXTARGET, RXKIND (R32): present exactly when PHASE = RXWAIT. -/
  rxop     : Option Receive
  /-- BAUD (R39). -/
  baud     : Word
  /-- TX as seen from outside, oldest byte first (20_memory.md R64, R67). -/
  tx       : List Byte
  /-- RX, front first (R65). -/
  rx       : List RxItem
  /-- The environment's answers to the OPENs to come (R131, log entry 4). -/
  opens    : List OpenAnswer
  /-- What the OPENs so far handed to the environment, oldest first (log entry 11). -/
  openReqs : List OpenRequest
  /-- The results handed to the host, oldest first (R108, log entry 6). -/
  results  : List OpResult
  /-- A wire packet set into the packeter by itself, which the engine emits when it next acts. 30_encoding.md R96: the
  engine holds no packet between operations, so no run from reset has one here. DESIGN CHOICE, safe (log entry 7). -/
  held     : Option Word
  /-- The moves to come, the next one first (log entry 5). -/
  sched    : List Move
  deriving DecidableEq, Repr

/-- The reasons a step stops. They are not the engine's faults, which are next states (60_exceptions.md R236). -/
inductive Fault
  /-- A byte of FB below FLEN is not listed. Raised by DECODE and at the end of GETEMIS, only in a state that no
  run reaches; safe (log entry 2). -/
  | fbNoValue
  /-- A byte would be stored past address 1543, which does not exist (20_memory.md R60). Raised by the receive
  procedure, only in a state that no run reaches; safe (log entry 19). -/
  | fbAddress (a : Nat)
  deriving DecidableEq, Repr

/-- The reasons an instruction has no meaning. -/
inductive Refusal
  /-- The instruction of this name has no meaning yet. Raised by no arm of exec; safe. -/
  | notModelled (mnemonic : String)
  deriving DecidableEq, Repr

/-- After reset (R44): closed, idle, nothing received, no fault recorded, and no data state with a value. BAUD
holds BAUD_RATE. The boundary fields are empty (log entries 3 to 6, 9, 11), and no packet is held (R96). -/
def State.reset : State where
  chstate := .closed
  fb := []
  flen := 0
  decoded := none
  grid := none
  emis := none
  ecause := 0
  einfo := 0
  eflags := 0
  rxop := none
  baud := Config.baudRate
  tx := []
  rx := []
  opens := []
  openReqs := []
  results := []
  held := none
  sched := []

end Sys2Proof.Machine
end

