-- ==== Sys2Proof/Machine/Flags.lean ====
section
/-! DEFINITION. Status and flags: CHSTATE's codes (10_state.md R31), the valid bits (R35), PHASE (R32), STATUS
(R34), the fault codes (60_exceptions.md R220) and the sticky bits of EFLAGS (R38). -/

namespace Sys2Proof.Machine

/-- The seven faults of the engine (R220). Raising one gives a next state (R236). -/
inductive EngineFault
  | channelUnavailable | shortRead | malformedFrame | notOpen | illegalOp | noValidData | aborted
  deriving DecidableEq, Repr

/-- The code of a fault (R220). -/
def EngineFault.code : EngineFault → Byte
  | .channelUnavailable => 1
  | .shortRead => 2
  | .malformedFrame => 3
  | .notOpen => 4
  | .illegalOp => 5
  | .noValidData => 6
  | .aborted => 7

/-- The two bits of CHSTATE (R31). -/
def ChState.code : ChState → BitVec 2
  | .closed => 0
  | .opened => 1
  | .failed => 2

/-- SVALID (R35). -/
def State.svalid (s : State) : Bool := s.decoded.isSome

/-- GVALID (R35). -/
def State.gvalid (s : State) : Bool := s.grid.isSome

/-- EVALID (R35). -/
def State.evalid (s : State) : Bool := s.emis.isSome

/-- PHASE = RXWAIT (R32). -/
def State.waiting (s : State) : Bool := s.rxop.isSome

/-- STATUS, assembled (R34): bits 1:0 CHSTATE, 2 SVALID, 3 GVALID, 4 EVALID, the rest 0. -/
def State.status (s : State) : Word :=
  (0 : BitVec 27) ++ BitVec.ofBool s.evalid ++ BitVec.ofBool s.gvalid ++ BitVec.ofBool s.svalid ++ s.chstate.code

/-- `EFLAGS[k] <- 1` for the fault's code k (R38, R236). -/
def setEflag (f : EngineFault) (e : Byte) : Byte := e ||| ((1 : Byte) <<< f.code.toNat)

end Sys2Proof.Machine
end

