-- ==== Sys2Proof/Syntax.lean ====
section
/-! DEFINITION. The two encoded spaces of the engine as one syntax: the host operations of format H
(30_encoding.md R93) and the wire command packets of format W (R99, R100). -/

namespace Sys2Proof

/-- One constructor per row of spec/opcode_table.json. Operands stand as the encoding carries them;
`Instr.wellFormed` says which are in range. -/
inductive Instr
  /-- OPEN (40_transport.md R131). -/
  | openCh
  /-- CLOSE (R132). -/
  | close
  /-- SEND wop, wpl (R133). -/
  | send (wop wpl : Byte)
  /-- QUERY wop, wpl, len (R135). -/
  | query (wop wpl len : Byte)
  /-- READ n (R136). -/
  | read (n : Half)
  /-- DECODE (41_decode.md R170). -/
  | decode
  /-- NORM (42_normalize.md R192). -/
  | norm
  /-- SETLO lo, in centi-degrees (R190). -/
  | setlo (lo : Sample)
  /-- SETHI hi, in centi-degrees (R191). -/
  | sethi (hi : Sample)
  /-- GETEMIS (40_transport.md R138). -/
  | getemis
  /-- SHUTDOWN (R146). -/
  | shutdown
  /-- RDREG r (43_readout.md R210). -/
  | rdreg (r : Byte)
  /-- RDFB a (R211). -/
  | rdfb (a : Half)
  /-- RDS i (R212). -/
  | rds (i : Half)
  /-- RDG i (R213). -/
  | rdg (i : Half)
  /-- W.QEMIS, the packet A5 55 01 FB (40_transport.md R150). -/
  | wQemis
  /-- W.SETFPS8, the packet A5 25 04 CE (R151). -/
  | wSetfps8
  /-- W.START, the packet A5 35 02 DC (R152). -/
  | wStart
  /-- W.STOP, the packet A5 35 01 DB (R153). -/
  | wStop
  /-- W.CMD, the general packet A5 wop wpl cks (R154). -/
  | wCmd (wop wpl : Byte)
  deriving DecidableEq, Repr

/-- The twelve registers RDREG reads, in the order of their numbers (10_state.md R40). -/
inductive Reg
  | status | ecause | einfo | eflags | flen | amb | tmin | tmax | rlo | rhi | emis | baud
  deriving DecidableEq, Repr

/-- Is the instruction a host operation of format H (and not a wire packet of format W)? -/
def Instr.isHostOp : Instr → Bool
  | .openCh | .close | .send _ _ | .query _ _ _ | .read _ | .decode | .norm | .setlo _ | .sethi _ | .getemis
  | .shutdown | .rdreg _ | .rdfb _ | .rds _ | .rdg _ => true
  | .wQemis | .wSetfps8 | .wStart | .wStop | .wCmd _ _ => false

end Sys2Proof
end

