-- ==== Sys2Proof/WellFormed.lean ====
section
/-! DEFINITION. Which terms of the syntax are instructions: operands in the ranges of 30_encoding.md R93 and
R104; a general packet that is none of the four named ones (R99, R100, log entry 8). -/

namespace Sys2Proof

/-- Is the pair (WOP, WPL) one of the four named commands of R99? -/
def namedPacket (wop wpl : Byte) : Bool :=
  (wop, wpl) = Config.qemisPacket || (wop, wpl) = Config.setfps8Packet ||
    (wop, wpl) = Config.startPacket || (wop, wpl) = Config.stopPacket

/-- The operand ranges of R93: every other host operation takes every operand its fields can hold. -/
def Instr.wellFormed : Instr → Bool
  | .read n => n ≤ 1544
  | .rdreg r => r ≤ 11
  | .rdfb a => a ≤ 1543
  | .rds i => i ≤ 767
  | .rdg i => i ≤ 767
  | .wCmd wop wpl => !namedPacket wop wpl
  | .openCh | .close | .send _ _ | .query _ _ _ | .decode | .norm | .setlo _ | .sethi _ | .getemis | .shutdown
  | .wQemis | .wSetfps8 | .wStart | .wStop => true

end Sys2Proof
end

