-- ==== Sys2Proof/Decode.lean ====
section
/-! DEFINITION. Decoding a 32-bit word of either encoded space, total, rejecting by name (30_encoding.md R91 to
R93, R96 to R100, R104, R105), and the encoder written from the same tables (R93, R99, R111). -/

namespace Sys2Proof

/-- Why a word is no instruction (R104 for format H, the constraint of row W.CMD for format W). -/
inductive DecodeError
  /-- OP is 0x00 or 0x10 to 0xFF. -/
  | reservedOp
  /-- A reserved-zero field of the operation's shape is not 0 (R92). -/
  | reservedField
  /-- READ with IMM > 1544. -/
  | readLength
  /-- RDFB with IMM > 1543. -/
  | fbAddress
  /-- RDS with IMM > 767. -/
  | sampleIndex
  /-- RDG with IMM > 767. -/
  | cellIndex
  /-- RDREG with A > 11. -/
  | registerNumber
  /-- The first byte of a wire packet is not 0xA5 (R96). -/
  | packetHeader
  /-- The fourth byte of a wire packet is not its checksum (R97). -/
  | packetChecksum
  deriving DecidableEq, Repr

/-- OP, bits 31:24 of an operation word; WHD of a packet (R91, R98). -/
def opField (w : Word) : Byte := w.extractLsb' 24 8

/-- A, bits 23:16; WOP of a packet (R91, R98). -/
def aField (w : Word) : Byte := w.extractLsb' 16 8

/-- B, bits 15:8; WPL of a packet (R91, R98). -/
def bField (w : Word) : Byte := w.extractLsb' 8 8

/-- C, bits 7:0; WCK of a packet (R91, R98). -/
def cField (w : Word) : Byte := w.extractLsb' 0 8

/-- IMM, bits 15:0 of an operation word (R91, R105). -/
def immField (w : Word) : Half := w.extractLsb' 0 16

/-- The word with the four byte fields given, the first the most significant (R91, R98). -/
def assemble (op a b c : Byte) : Word :=
  BitVec.ofNat 32 (op.toNat * 2 ^ 24 + a.toNat * 2 ^ 16 + b.toNat * 2 ^ 8 + c.toNat)

/-- The word of shape HI (R92): OP, a zero A field, and IMM. -/
def assembleImm (op : Byte) (imm : Half) : Word := BitVec.ofNat 32 (op.toNat * 2 ^ 24 + imm.toNat)

/-- The checksum of a packet: the plain sum of header, opcode and payload, mod 256 (R97). -/
def cks (wop wpl : Byte) : Byte := Config.pktHeader + wop + wpl

/-- The word of a packet, by the writing convention of R98. -/
def packetWord (wop wpl : Byte) : Word := assemble Config.pktHeader wop wpl (cks wop wpl)

/-- A word of shape H0 (R92): A, B and C are reserved-zero. -/
def shapeH0 (w : Word) (i : Instr) : Except DecodeError Instr :=
  if aField w = 0 ∧ bField w = 0 ∧ cField w = 0 then .ok i else .error .reservedField

/-- A word of shape HI (R92): A is reserved-zero; the operation's own range check is `inRange`, R104. -/
def shapeHI (w : Word) (inRange : Half → Bool) (e : DecodeError) (i : Half → Instr) : Except DecodeError Instr :=
  if aField w ≠ 0 then .error .reservedField
  else if inRange (immField w) then .ok (i (immField w)) else .error e

/-- A word of shape H1 (R92): the register number in A, B and C reserved-zero. -/
def shapeH1 (w : Word) : Except DecodeError Instr :=
  if bField w ≠ 0 ∨ cField w ≠ 0 then .error .reservedField
  else if aField w ≤ 11 then .ok (.rdreg (aField w)) else .error .registerNumber

/-- A word of shape H2 (R92): wire opcode and payload, C reserved-zero. -/
def shapeH2 (w : Word) : Except DecodeError Instr :=
  if cField w = 0 then .ok (.send (aField w) (bField w)) else .error .reservedField

/-- The decoder of the operation port (R93, R104): every word is one of the fifteen operations with operands in
range, or illegal. A word of format W is illegal here, since OP 0xA5 is reserved. -/
def decodeHost (w : Word) : Except DecodeError Instr :=
  match (opField w).toNat with
  | 0x01 => shapeH0 w .openCh
  | 0x02 => shapeH0 w .close
  | 0x03 => shapeH2 w
  | 0x04 => .ok (.query (aField w) (bField w) (cField w))
  | 0x05 => shapeHI w (· ≤ 1544) .readLength .read
  | 0x06 => shapeH0 w .decode
  | 0x07 => shapeH0 w .norm
  | 0x08 => shapeHI w (fun _ => true) .reservedField .setlo
  | 0x09 => shapeHI w (fun _ => true) .reservedField .sethi
  | 0x0A => shapeH0 w .getemis
  | 0x0B => shapeH0 w .shutdown
  | 0x0C => shapeH1 w
  | 0x0D => shapeHI w (· ≤ 1543) .fbAddress .rdfb
  | 0x0E => shapeHI w (· ≤ 767) .sampleIndex .rds
  | 0x0F => shapeHI w (· ≤ 767) .cellIndex .rdg
  | _ => .error .reservedOp

/-- The wire command a pair (WOP, WPL) is: one of the four named ones (R99), else the general packet (R100). -/
def packetOf (wop wpl : Byte) : Instr :=
  if (wop, wpl) = Config.qemisPacket then .wQemis
  else if (wop, wpl) = Config.setfps8Packet then .wSetfps8
  else if (wop, wpl) = Config.startPacket then .wStart
  else if (wop, wpl) = Config.stopPacket then .wStop
  else .wCmd wop wpl

/-- The decoder of the wire packets (R96 to R100): header and checksum must hold. -/
def decodeWire (w : Word) : Except DecodeError Instr :=
  if opField w ≠ Config.pktHeader then .error .packetHeader
  else if cField w ≠ cks (aField w) (bField w) then .error .packetChecksum
  else .ok (packetOf (aField w) (bField w))

/-- The instruction of either space a word encodes. The spaces do not meet: 0xA5 is no OP value of R93. -/
def decodeWord (w : Word) : Except DecodeError Instr :=
  if opField w = Config.pktHeader then decodeWire w else decodeHost w

/-- The host's view of the decoder: `w` holds the low `nbits` bits, the bits above are 0. Both formats have one
fixed length of 32 bits (R90) and no byte order (R70, R98), so the number is the word. -/
def decodeTableWord (nbits w : Nat) : Option Instr :=
  let v := w % 2 ^ nbits
  if v < 2 ^ 32 then (decodeWord (BitVec.ofNat 32 v)).toOption else none

/-- The word of an instruction: the OP values of R93 with the shapes of R92, and the packets of R99 and R154. -/
def encode : Instr → Word
  | .openCh => assemble 0x01 0 0 0
  | .close => assemble 0x02 0 0 0
  | .send wop wpl => assemble 0x03 wop wpl 0
  | .query wop wpl len => assemble 0x04 wop wpl len
  | .read n => assembleImm 0x05 n
  | .decode => assemble 0x06 0 0 0
  | .norm => assemble 0x07 0 0 0
  | .setlo lo => assembleImm 0x08 lo
  | .sethi hi => assembleImm 0x09 hi
  | .getemis => assemble 0x0A 0 0 0
  | .shutdown => assemble 0x0B 0 0 0
  | .rdreg r => assemble 0x0C r 0 0
  | .rdfb a => assembleImm 0x0D a
  | .rds i => assembleImm 0x0E i
  | .rdg i => assembleImm 0x0F i
  | .wQemis => packetWord 0x55 0x01
  | .wSetfps8 => packetWord 0x25 0x04
  | .wStart => packetWord 0x35 0x02
  | .wStop => packetWord 0x35 0x01
  | .wCmd wop wpl => packetWord wop wpl

end Sys2Proof
end

