-- ==== Sys2Proof/Machine/Operands.lean ====
section
/-! DEFINITION. Operand forms: the conversions of 00_scope.md R11, register numbers (10_state.md R40), counts,
degrees, rows and columns, and arrays of 768 lanes (41_decode.md R179, 42_normalize.md R192). -/

namespace Sys2Proof.Machine

/-- `u16le` (R11): the byte at the lower index is the less significant. -/
def u16le (lo hi : Byte) : BitVec 16 := hi ++ lo

/-- `s16le` (R11): the same sixteen bits; `toInt` reads them as two's complement. -/
def s16le (lo hi : Byte) : Sample := hi ++ lo

/-- `zext_32` (R11). -/
def zext32 {n : Nat} (v : BitVec n) : Word := v.setWidth 32

/-- `sext_32` (R11). -/
def sext32 (v : Sample) : Word := v.signExtend 32

/-- The count operand of a receive: IMM of READ or C of QUERY (R105, R135, R136). -/
def countOf {n : Nat} (v : BitVec n) : Count := v.setWidth 11

/-- `deg` (00_scope.md R13): a held integer of centi-degrees seen in degrees, exactly. A view: no register holds it and
no operation divides by 100. -/
def deg (x : Int) : ℚ := x / 100

/-- The index in S and G of the element at a row and a column (10_state.md R29). -/
def cellIndex (r : Fin 24) (c : Fin 32) : Fin 768 := ⟨32 * r.val + c.val, by omega⟩

/-- The row of an index (R29). -/
def cellRow (i : Fin 768) : Fin 24 := ⟨i.val / 32, by omega⟩

/-- The column of an index (R29). -/
def cellColumn (i : Fin 768) : Fin 32 := ⟨i.val % 32, by omega⟩

/-- The register a number stands for (R40); 12 to 255 stand for none. -/
def regOf (r : Byte) : Option Reg :=
  match r.toNat with
  | 0 => some .status
  | 1 => some .ecause
  | 2 => some .einfo
  | 3 => some .eflags
  | 4 => some .flen
  | 5 => some .amb
  | 6 => some .tmin
  | 7 => some .tmax
  | 8 => some .rlo
  | 9 => some .rhi
  | 10 => some .emis
  | 11 => some .baud
  | _ => none

/-- The array of `n` elements whose element `i` is `f i`. -/
def tabulate {α : Type} {n : Nat} (f : Fin n → α) : Vector α n :=
  ⟨(List.ofFn f).toArray, by simp⟩

/-- The array of `n` elements whose element `i` is `f i`, if every one has a value. -/
def collect {α : Type} (n : Nat) (f : Nat → Option α) : Option (Vector α n) :=
  if h : ∀ i : Fin n, (f i).isSome = true then some (tabulate fun i => (f i).get (h i)) else none

/-- Apply `f` in every lane: lane `i` of the result depends on lane `i` alone (R179, R192). -/
def lanes {α β : Type} {n : Nat} (f : α → β) (v : Vector α n) : Vector β n :=
  ⟨(v.toList.map f).toArray, by simp⟩

/-- `min` on s16 values, by the signed order (R12, R173). -/
def smin (a b : Sample) : Sample := if a.toInt ≤ b.toInt then a else b

/-- `max` on s16 values, by the signed order (R12, R173). -/
def smax (a b : Sample) : Sample := if a.toInt ≤ b.toInt then b else a

/-- The least of the samples: a fold over the list (R173, R174), from the greatest s16 value. -/
def minOf {n : Nat} (v : Vector Sample n) : Sample := v.toList.foldl smin 0x7FFF

/-- The greatest of the samples: a fold over the list (R173, R174), from the least s16 value. -/
def maxOf {n : Nat} (v : Vector Sample n) : Sample := v.toList.foldl smax 0x8000

end Sys2Proof.Machine
end

