-- ==== Sys2Proof/Machine/Ops.lean ====
section
/-! DEFINITION. The shared operations: the frame buffer (20_memory.md), ending an operation (30_encoding.md R108),
fault entry (60_exceptions.md R236), packets on TX (R64, R96), the receive procedure (40_transport.md R137), abort
(60_exceptions.md R232, R233) and reset (70_reset_and_hazards.md R260). -/

namespace Sys2Proof.Machine

/-- The outcome of a step. -/
abbrev Out := Host.Outcome State Fault Refusal

/-! ## The frame buffer -/

/-- The byte at an address: none where it has no value (R30, R61). -/
def Memory.read (a : Nat) : Memory → Option Byte
  | [] => none
  | (x, b) :: m => if x = a then some b else Memory.read a m

/-- Put a byte at its place in the rising order of the addresses. -/
def Memory.insert (a : Nat) (b : Byte) : Memory → Memory
  | [] => [(a, b)]
  | (x, c) :: m =>
    if x < a then (x, c) :: Memory.insert a b m else if x = a then (a, b) :: m else (a, b) :: (x, c) :: m

/-- Write a byte: none where the address does not exist, past 1543 (R60; `RXBUF_CAP`, R8). -/
def Memory.write (a : Nat) (b : Byte) (m : Memory) : Option Memory :=
  if a < 1544 then some (Memory.insert a b m) else none

/-- The canonical form: addresses strictly rising, all of them addresses of FB (R60). No entry can equal what an
unlisted address reads as, since that is no value. -/
def Memory.wf (m : Memory) : Bool :=
  decide (m.Pairwise fun x y => x.1 < y.1) && m.all fun x => decide (x.1 < 1544)

/-- Sample `i` of the frame in FB (R62, R106, 41_decode.md R172). -/
def Memory.sampleAt (m : Memory) (i : Nat) : Option Sample :=
  match Memory.read (4 + 2 * i) m, Memory.read (5 + 2 * i) m with
  | some lo, some hi => some (s16le lo hi)
  | _, _ => none

/-- The ambient temperature of the frame in FB (R62, R106, 41_decode.md R171). -/
def Memory.ambient (m : Memory) : Option (BitVec 16) :=
  match Memory.read 1540 m, Memory.read 1541 m with
  | some lo, some hi => some (u16le lo hi)
  | _, _ => none

/-- The 768 samples of the frame in FB (R172). -/
def Memory.samples (m : Memory) : Option (Vector Sample 768) := collect 768 m.sampleAt

/-! ## The end of an operation -/

/-- Hand a result to the host (R108). -/
def State.respond (r : OpResult) (s : State) : State := { s with results := s.results ++ [r] }

/-- `done(v)`: the operation ends with code 0 and value v (00_scope.md R14, R108). -/
def finish (v : Word) (s : State) : Out := .next (s.respond ⟨0, v⟩)

/-- Fault entry (R236): ECAUSE, EINFO, the fault's bit of EFLAGS, PHASE <- IDLE, then the result (code, info). The
changes an operation lists for the fault come before it. There is no return from a fault (R238). -/
def State.raise (f : EngineFault) (info : Word) (s : State) : State :=
  { s with
    ecause := f.code, einfo := info, eflags := setEflag f s.eflags, rxop := none,
    results := s.results ++ [⟨f.code, info⟩] }

/-- `raise F(info)`: the operation ends with the fault (00_scope.md R14, R236). -/
def fail (f : EngineFault) (info : Word) (s : State) : Out := .next (s.raise f info)

/-! ## Packets on TX -/

/-- `pack(wop, wpl)` (30_encoding.md R96). -/
def pack (wop wpl : Byte) : List Byte := [Config.pktHeader, wop, wpl, cks wop wpl]

/-- `unpack` (R101): opcode, payload and checksum of a packet; none for anything but four bytes. -/
def unpack : List Byte → Option (Byte × Byte × Byte)
  | [_, b1, b2, b3] => some (b1, b2, b3)
  | _ => none

/-- A well formed packet (R101). -/
def packetWellFormed : List Byte → Bool
  | [b0, b1, b2, b3] => b0 = Config.pktHeader && b3 = b0 + b1 + b2
  | _ => false

/-- The four bytes of a packet go to TX, header first (R64, R96). -/
def State.sendPacket (wop wpl : Byte) (s : State) : State := { s with tx := s.tx ++ pack wop wpl }

/-- A packet goes to TX if the channel is open or failed; a closed channel puts nothing on TX (R67, R133, R146). -/
def State.sendIfOpen (wop wpl : Byte) (s : State) : State :=
  if s.chstate = .closed then s else s.sendPacket wop wpl

/-! ## The channel -/

/-- `env_open(DEVICE_PATH, BAUD_RATE)` (R14, R131): the environment's next answer, and the state with the request
recorded and the answer used. With no answer listed there is no device to open (log entry 4). -/
def State.askOpen (s : State) : OpenAnswer × State :=
  let s' := { s with openReqs := s.openReqs ++ [⟨Config.devicePath, s.baud⟩], opens := s.opens.tail }
  (s.opens.headD .unavailable, s')

/-- The channel condition of a receive (R130, R135, R136, R138): NotOpen(w) in CLOSED, ShortRead(0) in FAILED. -/
def ifOpened (w : Word) (s : State) (body : Out) : Out :=
  match s.chstate with
  | .closed => fail .notOpen w s
  | .failed => fail .shortRead 0 s
  | .opened => body

/-! ## The receive procedure (R137) -/

/-- **complete**: PHASE <- IDLE; for GETEMIS the latch of FB[2] (`EMIS_IDX`, R7, R19) and its
value, else FLEN (R137, R138). -/
def completeReceive (k : RxKind) (s : State) : Out :=
  match k with
  | .plain => finish (zext32 s.flen) { s with rxop := none }
  | .emis =>
    match Memory.read 2 s.fb with
    | some b => finish (zext32 b) { s with rxop := none, emis := some b }
    | none => .fault .fbNoValue

/-- **start**: FLEN <- 0, which empties FB (R61), and RXWAIT, or completion at once for n = 0. -/
def startReceive (n : Count) (k : RxKind) (s : State) : Out :=
  let s' := { s with fb := [], flen := 0 }
  if n = 0 then completeReceive k s' else .next { s' with rxop := some ⟨n, k⟩ }

/-- **byte**: the byte goes to FB[FLEN], FLEN counts it, and at RXTARGET the receive is complete. -/
def storeByte (r : Receive) (b : Byte) (s : State) : Out :=
  match Memory.write s.flen.toNat b s.fb with
  | none => .fault (.fbAddress s.flen.toNat)
  | some m =>
    let s' := { s with fb := m, flen := s.flen + 1 }
    if s.flen + 1 = r.target then completeReceive r.kind s' else .next s'

/-- The receive in progress takes the front item of RX: **byte**, **err**, or **wait** while there is none. -/
def takeItem (r : Receive) (s : State) : Out :=
  match s.rx with
  | [] => .next s
  | .byte b :: rest => storeByte r b { s with rx := rest }
  | .err :: rest => fail .shortRead (zext32 s.flen) { s with rx := rest, chstate := .failed }

/-- The engine's own transition: an item of the receive in progress; an idle engine has none (R32, R137). -/
def engineMove (s : State) : Out :=
  match s.rxop with
  | none => .next s
  | some r => takeItem r s

/-! ## Abort and reset -/

/-- `abort`: during a receive the fault Aborted, nothing taken from RX (60_exceptions.md R232); else no effect (R233). -/
def State.abort (s : State) : State :=
  match s.rxop with
  | none => s
  | some _ => s.raise .aborted (zext32 s.flen)

/-- Reset (70_reset_and_hazards.md R260): the engine's state as R44 lists it; an operation in progress is dropped
without a result, and nothing is sent, taken or held. BAUD is the configured rate, which nothing changes (R39). -/
def State.restart (s : State) : State :=
  { State.reset with
    baud := s.baud, tx := s.tx, rx := s.rx, opens := s.opens, openReqs := s.openReqs, results := s.results,
    sched := s.sched }

end Sys2Proof.Machine
end

