-- ==== Sys2Proof/Machine/FrameParser.lean ====
section
/-! DEFINITION. The frame parser and min/max reducer (41_decode.md): DECODE, and the decoded frame in degrees (R178). -/

namespace Sys2Proof.Machine

/-- The decoded frame of given samples and ambient temperature (R170, R173, R177). -/
def decodedFrame (amb : BitVec 16) (samples : Vector Sample 768) : Decoded where
  amb := amb
  samples := samples
  tmin := minOf samples
  tmax := maxOf samples
  rlo := minOf samples
  rhi := maxOf samples

/-- The decoded frame of the buffer's bytes (R170 to R173); none if one of the bytes it reads has no value. -/
def Memory.decodeFrame (m : Memory) : Option Decoded :=
  match m.ambient, m.samples with
  | some amb, some samples => some (decodedFrame amb samples)
  | _, _ => none

/-- The source's `DecodedFrame` record (R178), in degrees Celsius, exactly (00_scope.md R13); 24 rows of 32 columns
(10_state.md R29). -/
structure FrameInDegrees where
  ambientTemp  : ℚ
  temperatures : Vector (Vector ℚ 32) 24
  tMin         : ℚ
  tMax         : ℚ
  deriving DecidableEq, Repr

/-- The decoded frame seen in degrees (R178): AMB is unsigned, the samples and their extrema are signed. -/
def Decoded.inDegrees (d : Decoded) : FrameInDegrees where
  ambientTemp := deg d.amb.toNat
  temperatures := tabulate fun r => tabulate fun c => deg (d.samples[cellIndex r c]).toInt
  tMin := deg d.tmin.toInt
  tMax := deg d.tmax.toInt

/-- The view in degrees of the engine's decoded frame (R178), absent while SVALID = 0 (10_state.md R35). -/
def State.frameInDegrees (s : State) : Option FrameInDegrees := s.decoded.map Decoded.inDegrees

/-- DECODE (R170): the one test is the length (60_exceptions.md R223). -/
def execDecode (s : State) : Out :=
  if s.flen ≠ 1544 then fail .malformedFrame (zext32 s.flen) { s with decoded := none, grid := none }
  else
    match s.fb.decodeFrame with
    | some d => finish 0 { s with decoded := some d, grid := none }
    | none => .fault .fbNoValue

end Sys2Proof.Machine
end

