-- ==== Sys2Proof/Machine/Quantiser.lean ====
section
/-! DEFINITION. The temperature-to-byte quantiser (42_normalize.md): SETLO, SETHI, NORM and the function Q. -/

namespace Sys2Proof.Machine

/-- `clamp` (00_scope.md R12). -/
def clamp (z lo hi : Int) : Int := max lo (min hi z)

/-- The rounded quotient `floor(255*N/D + 1/2)` in integers, the divisor made positive first (R195). Int's division
by a positive divisor rounds toward minus infinity, the spec's `floor_div` (R12). -/
def quotient (n d : Int) : Int :=
  if d < 0 then (510 * -n + -d) / (2 * -d) else (510 * n + d) / (2 * d)

/-- `Q(v, lo, hi)` in its integer form (R195), with the zero range of R197 and the clamp of R198. -/
def quantise (v lo hi : Sample) : Byte :=
  let n := v.toInt - lo.toInt
  let d := hi.toInt - lo.toInt
  if d = 0 then Config.degenValue else BitVec.ofInt 8 (clamp (quotient n d) 0 Config.qmax)

/-- SETLO (R190). -/
def execSetlo (lo : Sample) (s : State) : Out :=
  match s.decoded with
  | none => fail .noValidData (encode (.setlo lo)) s
  | some d => finish 0 { s with decoded := some { d with rlo := lo } }

/-- SETHI (R191). -/
def execSethi (hi : Sample) (s : State) : Out :=
  match s.decoded with
  | none => fail .noValidData (encode (.sethi hi)) s
  | some d => finish 0 { s with decoded := some { d with rhi := hi } }

/-- NORM (R192): every lane with the same RLO and RHI. -/
def execNorm (s : State) : Out :=
  match s.decoded with
  | none => fail .noValidData (encode .norm) s
  | some d => finish 0 { s with grid := some (lanes (fun v => quantise v d.rlo d.rhi) d.samples) }

end Sys2Proof.Machine
end

