-- ==== Sys2Proof/Machine/Readout.lean ====
section
/-! DEFINITION. The readout operations (43_readout.md): RDREG, RDFB, RDS, RDG. They change nothing but what their own
result or fault changes (R214). -/

namespace Sys2Proof.Machine

/-- The value RDREG returns for a register; none where its valid bit is 0 (10_state.md R40, 43_readout.md R210). -/
def readReg (r : Reg) (s : State) : Option Word :=
  match r with
  | .status => some s.status
  | .ecause => some (zext32 s.ecause)
  | .einfo => some s.einfo
  | .eflags => some (zext32 s.eflags)
  | .flen => some (zext32 s.flen)
  | .amb => s.decoded.map fun d => zext32 d.amb
  | .tmin => s.decoded.map fun d => sext32 d.tmin
  | .tmax => s.decoded.map fun d => sext32 d.tmax
  | .rlo => s.decoded.map fun d => sext32 d.rlo
  | .rhi => s.decoded.map fun d => sext32 d.rhi
  | .emis => s.emis.map fun e => zext32 e
  | .baud => some s.baud

/-- The value RDFB returns: none at or beyond FLEN (R211). -/
def readBuffer (a : Nat) (s : State) : Option Word :=
  if a < s.flen.toNat then (Memory.read a s.fb).map fun b => zext32 b else none

/-- The value RDS returns: none where SVALID = 0 (R212). -/
def readSample (i : Fin 768) (s : State) : Option Word := s.decoded.map fun d => sext32 d.samples[i]

/-- The value RDG returns: none where GVALID = 0 (R213). -/
def readCell (i : Fin 768) (s : State) : Option Word := s.grid.map fun g => zext32 g[i]

/-- A readout ends with the value read, or NoValidData(w) where there is none (60_exceptions.md R226). -/
def readout (w : Word) (v : Option Word) (s : State) : Out :=
  match v with
  | some x => finish x s
  | none => fail .noValidData w s

/-- RDREG (R210); a number over 11 makes the word illegal (R104). -/
def execRdreg (r : Byte) (s : State) : Out :=
  match regOf r with
  | some reg => readout (encode (.rdreg r)) (readReg reg s) s
  | none => fail .illegalOp (encode (.rdreg r)) s

/-- RDFB (R211); an address over 1543 makes the word illegal (R104). -/
def execRdfb (a : Half) (s : State) : Out :=
  if a ≤ 1543 then readout (encode (.rdfb a)) (readBuffer a.toNat s) s
  else fail .illegalOp (encode (.rdfb a)) s

/-- RDS (R212); an index over 767 makes the word illegal (R104). -/
def execRds (i : Half) (s : State) : Out :=
  if h : i.toNat < 768 then readout (encode (.rds i)) (readSample ⟨i.toNat, h⟩ s) s
  else fail .illegalOp (encode (.rds i)) s

/-- RDG (R213); an index over 767 makes the word illegal (R104). -/
def execRdg (i : Half) (s : State) : Out :=
  if h : i.toNat < 768 then readout (encode (.rdg i)) (readCell ⟨i.toNat, h⟩ s) s
  else fail .illegalOp (encode (.rdg i)) s

end Sys2Proof.Machine
end

