-- ==== Sys2Proof/Machine/Transport.lean ====
section
/-! DEFINITION. The transport operations (40_transport.md): OPEN, CLOSE, SEND, QUERY, READ, GETEMIS, SHUTDOWN. -/

namespace Sys2Proof.Machine

/-- OPEN (R131). -/
def execOpen (s : State) : Out :=
  if s.chstate ≠ .closed then fail .channelUnavailable (zext32 s.chstate.code) s
  else
    match s.askOpen with
    | (.unavailable, s') => fail .channelUnavailable 0 s'
    | (.available offered, s') => finish 0 { s' with chstate := .opened, rx := offered }

/-- CLOSE (R132). -/
def execClose (s : State) : Out := finish 0 { s with chstate := .closed }

/-- SEND (R133). -/
def execSend (wop wpl : Byte) (s : State) : Out :=
  if s.chstate = .closed then fail .notOpen (encode (.send wop wpl)) s
  else finish 0 (s.sendPacket wop wpl)

/-- QUERY (R135): the command is on TX before the first item is taken (20_memory.md R75). -/
def execQuery (wop wpl len : Byte) (s : State) : Out :=
  ifOpened (encode (.query wop wpl len)) s (startReceive (countOf len) .plain (s.sendPacket wop wpl))

/-- READ (R136); a count over 1544 makes the word illegal (R104). -/
def execRead (n : Half) (s : State) : Out :=
  if n ≤ 1544 then ifOpened (encode (.read n)) s (startReceive (countOf n) .plain s)
  else fail .illegalOp (encode (.read n)) s

/-- GETEMIS (R138): a response of `EMIS_RESP_LEN` bytes (00_scope.md R7). -/
def execGetemis (s : State) : Out :=
  ifOpened (encode .getemis) s (startReceive 4 .emis (s.sendPacket 0x55 0x01))

/-- The emissivity, a view of EMIS: the exact rational `EMIS / 100`, unchecked (10_state.md R26), absent while
EVALID = 0. -/
def State.emissivity (s : State) : Option ℚ := s.emis.map fun e => e.toNat / 100

/-- SHUTDOWN (R146): the stop packet best-effort, then closed. -/
def execShutdown (s : State) : Out := finish 0 { s.sendIfOpen 0x35 0x01 with chstate := .closed }

end Sys2Proof.Machine
end

