-- ==== Sys2Proof/Machine/Wire.lean ====
section
/-! DEFINITION. The wire commands (40_transport.md R150 to R154): the engine puts the four bytes of the packet on TX.
No result goes to the host, since a packet is no operation (R108); a closed channel puts nothing on TX (20_memory.md
R67; log entry 7). -/

namespace Sys2Proof.Machine

/-- W.QEMIS (R150). -/
def execWQemis (s : State) : Out := .next (s.sendIfOpen 0x55 0x01)

/-- W.SETFPS8 (R151). -/
def execWSetfps8 (s : State) : Out := .next (s.sendIfOpen 0x25 0x04)

/-- W.START (R152). The engine keeps no record that it was sent (10_state.md R42). -/
def execWStart (s : State) : Out := .next (s.sendIfOpen 0x35 0x02)

/-- W.STOP (R153). -/
def execWStop (s : State) : Out := .next (s.sendIfOpen 0x35 0x01)

/-- W.CMD (R154). -/
def execWCmd (wop wpl : Byte) (s : State) : Out := .next (s.sendIfOpen wop wpl)

end Sys2Proof.Machine
end

