-- ==== Sys2Proof/Machine/Dispatch.lean ====
section
/-! DEFINITION. One arm per instruction, each a call of its meaning. -/

namespace Sys2Proof.Machine

/-- The effect of an instruction the engine has accepted, from start to `done` or `raise` (00_scope.md R15); for a
receive, up to its first wait (40_transport.md R137). -/
def exec (i : Instr) (s : State) : Host.Outcome State Fault Refusal :=
  match i with
  | .openCh => Sys2Proof.Machine.execOpen s
  | .close => Sys2Proof.Machine.execClose s
  | .send wop wpl => Sys2Proof.Machine.execSend wop wpl s
  | .query wop wpl len => Sys2Proof.Machine.execQuery wop wpl len s
  | .read n => Sys2Proof.Machine.execRead n s
  | .decode => Sys2Proof.Machine.execDecode s
  | .norm => Sys2Proof.Machine.execNorm s
  | .setlo lo => Sys2Proof.Machine.execSetlo lo s
  | .sethi hi => Sys2Proof.Machine.execSethi hi s
  | .getemis => Sys2Proof.Machine.execGetemis s
  | .shutdown => Sys2Proof.Machine.execShutdown s
  | .rdreg r => Sys2Proof.Machine.execRdreg r s
  | .rdfb a => Sys2Proof.Machine.execRdfb a s
  | .rds idx => Sys2Proof.Machine.execRds idx s
  | .rdg idx => Sys2Proof.Machine.execRdg idx s
  | .wQemis => Sys2Proof.Machine.execWQemis s
  | .wSetfps8 => Sys2Proof.Machine.execWSetfps8 s
  | .wStart => Sys2Proof.Machine.execWStart s
  | .wStop => Sys2Proof.Machine.execWStop s
  | .wCmd wop wpl => Sys2Proof.Machine.execWCmd wop wpl s

end Sys2Proof.Machine
end

