-- ==== Sys2Proof/Machine/Fetch.lean ====
section
/-! DEFINITION. How the engine comes to its next transition: the next move of the schedule (log entry 5), and where a
word is placed so that the next step runs it (log entry 9). The engine fetches nothing from memory (10_state.md R33). -/

namespace Sys2Proof.Machine

/-- What the next move gives: an instruction to run, or an outcome already settled. -/
inductive Fetched
  | runs (i : Instr) (s : State)
  | moved (o : Out)

/-- The operation port (40_transport.md R130): a waiting engine takes no word, and goes on with its receive; an idle
one takes it, and an illegal word raises IllegalOp with the word (60_exceptions.md R225). `s'` is the state with the
word taken from the port. -/
def acceptWord (w : Word) (s s' : State) : Fetched :=
  if s.waiting then .moved (engineMove s)
  else
    match decodeHost w with
    | .ok i => .runs i s'
    | .error _ => .moved (fail .illegalOp w s')

/-- The engine emits the packet it holds, and holds none after it; a number that is no packet is dropped (30_encoding.md
R96; log entries 7, 13). -/
def emitHeld (w : Word) (s : State) : Fetched :=
  match decodeWire w with
  | .ok i => .runs i { s with held := none }
  | .error _ => .moved (.next { s with held := none })

/-- The engine acts by itself: an item of a receive in progress, or, idle, the packet it holds. Holding none, as in every
run, an idle engine has no transition (10_state.md R32). -/
def engineTurn (s : State) : Fetched :=
  match s.rxop, s.held with
  | none, some w => emitHeld w s
  | none, none => .moved (engineMove s)
  | some _, _ => .moved (engineMove s)

/-- The next move of the schedule; with none left the engine goes on by itself. -/
def fetch (s : State) : Fetched :=
  match s.sched with
  | [] => engineTurn s
  | .run :: rest => engineTurn { s with sched := rest }
  | .arrive it :: rest => .moved (.next { s with sched := rest, rx := s.rx ++ [it] })
  | .abort :: rest => .moved (.next (State.abort { s with sched := rest }))
  | .reset :: rest => .moved (.next (State.restart { s with sched := rest }))
  | .word w :: rest => acceptWord w s { s with sched := rest }

/-- The idle state in which the next step runs the word: a wire packet stands in the packeter and the engine acts next;
any other word is handed over by the host (log entry 9). -/
def State.place (w : Word) (s : State) : State :=
  match decodeWire w with
  | .ok _ => { s with rxop := none, held := some w, sched := .run :: s.sched }
  | .error _ => { s with rxop := none, sched := .word w :: s.sched }

/-- The same for a word given as a number of `nbits` bits. -/
def State.offer (nbits w : Nat) (s : State) : State := s.place (BitVec.ofNat 32 (w % 2 ^ nbits))

end Sys2Proof.Machine
end

