-- ==== Sys2Proof/Machine/Step.lean ====
section
/-! DEFINITION. One step of the machine. -/

namespace Sys2Proof.Machine

/-- The outcome of what was fetched: the instruction is run, or it is settled. -/
def Fetched.outcome : Fetched → Out
  | .runs i s => exec i s
  | .moved o => o

/-- One step: the next move of the schedule (log entry 5). -/
def step (s : State) : Host.Outcome State Fault Refusal := (fetch s).outcome

/-- `s` with the word `w` of `nbits` bits where the next step takes it (log entry 9). -/
def State.withFetchWord (s : State) (nbits w : Nat) : State := s.offer nbits w

end Sys2Proof.Machine
end

