-- ==== Sys2Proof/Machine/Pseudo.lean ====
section
/-! DEFINITION. The written forms: the syntax of an operation (30_encoding.md R109) and the pseudo-operations (R110),
shorthand for sequences of operations with no encoding of their own, among them the sequences a host issues
(70_reset_and_hazards.md R263, R264). -/

namespace Sys2Proof.Machine

/-- An operation as it is written: mnemonic, then operands in decimal, a signed one with its sign (R109). -/
def text (i : Instr) : String :=
  let n {w : Nat} (v : BitVec w) : String := toString v.toNat
  match i with
  | .openCh => "OPEN"
  | .close => "CLOSE"
  | .send wop wpl => "SEND " ++ n wop ++ ", " ++ n wpl
  | .query wop wpl len => "QUERY " ++ n wop ++ ", " ++ n wpl ++ ", " ++ n len
  | .read k => "READ " ++ n k
  | .decode => "DECODE"
  | .norm => "NORM"
  | .setlo lo => "SETLO " ++ toString lo.toInt
  | .sethi hi => "SETHI " ++ toString hi.toInt
  | .getemis => "GETEMIS"
  | .shutdown => "SHUTDOWN"
  | .rdreg r => "RDREG " ++ n r
  | .rdfb a => "RDFB " ++ n a
  | .rds k => "RDS " ++ n k
  | .rdg k => "RDG " ++ n k
  | .wQemis => "W.QEMIS"
  | .wSetfps8 => "W.SETFPS8"
  | .wStart => "W.START"
  | .wStop => "W.STOP"
  | .wCmd wop wpl => "W.CMD " ++ n wop ++ ", " ++ n wpl

/-- The pseudo-operations (R110). -/
inductive Pseudo
  | setfps8 | start | stop | qemis | rdframe | init | frame
  | normr (lo hi : Sample)
  deriving DecidableEq, Repr

/-- The operations a pseudo-operation stands for, in the order the host issues them (R110). -/
def Pseudo.expand : Pseudo → List Instr
  | .setfps8 => [.send 0x25 0x04]
  | .start => [.send 0x35 0x02]
  | .stop => [.send 0x35 0x01]
  | .qemis => [.query 0x55 0x01 4]
  | .rdframe => [.read 1544]
  | .init => [.openCh, .send 0x25 0x04, .send 0x35 0x02]
  | .frame => [.read 1544, .decode, .norm]
  | .normr lo hi => [.setlo lo, .sethi hi, .norm]

/-- The operation words of a pseudo-operation (R111). -/
def Pseudo.words (p : Pseudo) : List Word := p.expand.map encode

end Sys2Proof.Machine
end

