-- ==== Sys2Proof/Safety.lean ====
section
/-! DEFINITION. The terms in which claims about the engine speak: illegal words (30_encoding.md R104), what every
state of a run satisfies (`EngineInv`), and what is owed to the host (R108, 60_exceptions.md R246). -/

namespace Sys2Proof.Machine

/-- An operation word is illegal: R104, clause by clause, on the numbers in its fields. -/
def IllegalWord (w : Word) : Prop :=
  let op := (opField w).toNat
  let a := (aField w).toNat
  let b := (bField w).toNat
  let c := (cField w).toNat
  let imm := (immField w).toNat
  op = 0x00 ∨ 0x10 ≤ op ∨
  (op ∈ [0x01, 0x02, 0x06, 0x07, 0x0A, 0x0B] ∧ ¬(a = 0 ∧ b = 0 ∧ c = 0)) ∨
  (op = 0x0C ∧ ¬(b = 0 ∧ c = 0)) ∨
  (op = 0x03 ∧ c ≠ 0) ∨
  (op ∈ [0x05, 0x08, 0x09, 0x0D, 0x0E, 0x0F] ∧ a ≠ 0) ∨
  (op = 0x05 ∧ 1544 < imm) ∨ (op = 0x0D ∧ 1543 < imm) ∨ (op ∈ [0x0E, 0x0F] ∧ 767 < imm) ∨
  (op = 0x0C ∧ 11 < a)

/-- `lo` is the least and `hi` the greatest of the samples (10_state.md R22, R23). -/
def Extrema (lo hi : Sample) (v : Vector Sample 768) : Prop :=
  (∀ i : Fin 768, lo.toInt ≤ v[i].toInt ∧ v[i].toInt ≤ hi.toInt) ∧
  (∃ i : Fin 768, v[i] = lo) ∧ ∃ j : Fin 768, v[j] = hi

/-- What holds at reset and after every step. -/
structure EngineInv (s : State) : Prop where
  /-- FB[i] has a value exactly for i < FLEN, each cell once and in its place (10_state.md R30). -/
  fbFilled : s.fb.map Prod.fst = List.range s.flen.toNat
  /-- FLEN is 0 to 1544 (R30). -/
  flenBound : s.flen.toNat ≤ 1544
  /-- A receive in progress is on an open channel and has not yet its bytes (R31, R32, 40_transport.md R137). -/
  receiving : ∀ r, s.rxop = some r →
    s.chstate = .opened ∧ s.flen.toNat < r.target.toNat ∧ r.target.toNat ≤ 1544 ∧ (r.kind = .emis → r.target = 4)
  /-- TMIN and TMAX are the extrema of S whenever SVALID = 1 (R23). -/
  extrema : ∀ d, s.decoded = some d → Extrema d.tmin d.tmax d.samples
  /-- An image is valid only together with the frame it belongs to (R35). -/
  gridDecoded : s.gvalid = true → s.svalid = true
  /-- ECAUSE is 0 or a fault code (R36). -/
  causeBound : s.ecause.toNat ≤ 7
  /-- Bit 0 of EFLAGS is always 0 (R38). -/
  flagZero : s.eflags.getLsbD 0 = false
  /-- The last fault has its bit set (R38, R236). -/
  causeFlagged : s.ecause ≠ 0 → s.eflags.getLsbD s.ecause.toNat = true
  /-- Before the first fault since reset all three fault registers are 0 (R36 to R38). -/
  noFaultYet : s.ecause = 0 → s.einfo = 0 ∧ s.eflags = 0
  /-- TX is a sequence of whole packets (20_memory.md R64, 30_encoding.md R96). -/
  wholePackets : ∃ ps : List (Byte × Byte), s.tx = ps.flatMap fun p => pack p.1 p.2
  /-- The engine holds no packet between operations (R96). -/
  nothingHeld : s.held = none

/-- Is the move the issue of an operation word? -/
def Move.isWord : Move → Bool
  | .word _ => true
  | .abort | .arrive _ | .run | .reset => false

/-- The results handed over, the operation in progress and the words still to be issued: one each per word (R246). -/
def accounted (s : State) : Nat :=
  s.results.length + s.waiting.toNat + s.sched.countP Move.isWord

/-- No fault since reset: EFLAGS = 0 (R38). -/
def FaultFree (s : State) : Prop := s.eflags = 0

/-- `k` steps lead from the first state to the second without stopping. -/
def Runs : Nat → State → State → Prop
  | 0, s, t => s = t
  | k + 1, s, t => ∃ u, step s = .next u ∧ Runs k u t

end Sys2Proof.Machine
end

