-- ==== Sys2Proof/Certificates/Slice0/Obligations.lean ====
section
/-! DEFINITION. The statements for the provers. Each docstring names the rules it formalises; a clause that rests on a
choice of the model names its log entry. -/

open Sys2Proof Sys2Proof.Machine

/-! ## Encodings (30_encoding.md) -/

/-- Decoding the word of a well-formed instruction, of either space, gives the instruction back, with every operand at
every value (R91 to R93, R98 to R100, R105, R154). -/
def Obligations.DecodeOfEncodeIsTheInstruction : Prop :=
  ∀ i : Instr, i.wellFormed = true →
    decodeWord (encode i) = .ok i ∧ (i.isHostOp = true → decodeHost (encode i) = .ok i) ∧
      (i.isHostOp = false → decodeWire (encode i) = .ok i)

/-- A word that decodes, in either space, is the word of the instruction it decodes to, and that is well formed: no word
has two meanings (R104, R97, R99). -/
def Obligations.EncodeOfDecodeIsTheWord : Prop :=
  ∀ (w : Word) (i : Instr), decodeWord w = .ok i → i.wellFormed = true ∧ encode i = w

/-- R104, with R225: at an idle engine's port an illegal word raises IllegalOp with the word and does nothing else; every
other word is one of the fifteen operations with operands in range, and is run. -/
def Obligations.EveryWordIsAnOperationOrIllegal : Prop :=
  ∀ (s : State) (w : Word) (rest : List Move), s.rxop = none → s.sched = .word w :: rest →
    (IllegalWord w → step s = .next { s with
      sched := rest, ecause := 5, einfo := w, eflags := s.eflags ||| 0x20, results := s.results ++ [⟨5, w⟩] }) ∧
    (¬ IllegalWord w → ∃ i : Instr, i.isHostOp = true ∧ i.wellFormed = true ∧ encode i = w ∧
      step s = exec i { s with sched := rest })

/-- Words of R111 and R99, written out, and what they decode to at the port and on the wire. -/
def Obligations.WordsOfTheOperationTable : Prop :=
  decodeHost 0x01000000 = .ok .openCh ∧ decodeHost 0x02000000 = .ok .close ∧
  decodeHost 0x03250400 = .ok (.send 0x25 0x04) ∧ decodeHost 0x04550104 = .ok (.query 0x55 0x01 0x04) ∧
  decodeHost 0x05000608 = .ok (.read 1544) ∧ decodeHost 0x06000000 = .ok .decode ∧
  decodeHost 0x07000000 = .ok .norm ∧ decodeHost 0x0800FF9C = .ok (.setlo (-100)) ∧
  decodeHost 0x09000B54 = .ok (.sethi 2900) ∧ decodeHost 0x0A000000 = .ok .getemis ∧
  decodeHost 0x0B000000 = .ok .shutdown ∧ decodeHost 0x0C060000 = .ok (.rdreg 6) ∧
  decodeHost 0x0D000605 = .ok (.rdfb 1541) ∧ decodeHost 0x0E0002FF = .ok (.rds 767) ∧
  decodeHost 0x0F000000 = .ok (.rdg 0) ∧
  decodeWire 0xA55501FB = .ok .wQemis ∧ decodeWire 0xA52504CE = .ok .wSetfps8 ∧
  decodeWire 0xA53502DC = .ok .wStart ∧ decodeWire 0xA53501DB = .ok .wStop ∧
  decodeWire 0xA52507D1 = .ok (.wCmd 0x25 0x07)

/-- R101: unpacking a packed packet gives opcode, payload and checksum back, and the packet is well formed; a list of four
bytes is well formed exactly when its header is 0xA5 and its last byte is the sum of the first three mod 256. -/
def Obligations.UnpackOfPackIsTheTriple : Prop :=
  (∀ wop wpl : Byte, unpack (pack wop wpl) = some (wop, wpl, cks wop wpl) ∧
    packetWellFormed (pack wop wpl) = true) ∧
  ∀ b0 b1 b2 b3 : Byte, unpack [b0, b1, b2, b3] = some (b1, b2, b3) ∧
    (packetWellFormed [b0, b1, b2, b3] = true ↔
      b0 = 0xA5 ∧ b3.toNat = (b0.toNat + b1.toNat + b2.toNat) % 256)

/-- R97: the checksum is the plain sum of the first three bytes mod 256, the sum at most 675; and whatever a step puts on
TX is one whole packet with that checksum, computed by the engine. -/
def Obligations.EveryPacketSentCarriesItsChecksum : Prop :=
  (∀ wop wpl : Byte, (cks wop wpl).toNat = (0xA5 + wop.toNat + wpl.toNat) % 256 ∧
    0xA5 + wop.toNat + wpl.toNat ≤ 675) ∧
  ∀ s t : State, step s = .next t → t.tx = s.tx ∨
    ∃ wop wpl ck : Byte, t.tx = s.tx ++ [0xA5, wop, wpl, ck] ∧ ck.toNat = (0xA5 + wop.toNat + wpl.toNat) % 256

/-! ## Steps -/

/-- A step runs the decoded instruction (40_transport.md R130): when an idle engine's next move hands over a word that
decodes to `i`, the step is `exec i` with the move taken from the schedule; and when the engine acts by itself with a
packet held that decodes to `i`, the step is `exec i` with no packet held. (A packet held by itself is the model's choice,
log entry 7; no run from reset holds one.) -/
def Obligations.StepRunsTheDecodedInstruction : Prop :=
  ∀ (s : State) (w : Word) (i : Instr) (rest : List Move), s.rxop = none →
    (s.sched = .word w :: rest → decodeHost w = .ok i → step s = exec i { s with sched := rest }) ∧
    (s.held = some w → decodeWire w = .ok i →
      (s.sched = [] → step s = exec i { s with held := none }) ∧
      (s.sched = .run :: rest → step s = exec i { s with held := none, sched := rest }))

/-- R130, R246: while PHASE = RXWAIT the port takes no word. That the word stays the next move, and that the step goes on
with the receive in progress, as the engine does by itself, is the model's choice (log entry 5, DESIGN CHOICE). -/
def Obligations.WaitingEngineTakesNoWord : Prop :=
  ∀ (s t : State) (r : Receive) (w : Word) (rest : List Move), s.rxop = some r → s.sched = .word w :: rest →
    step s = .next t →
    t.sched = s.sched ∧ step { s with sched := [] } = .next { t with sched := [] } ∧ t.tx = s.tx ∧
      t.decoded = s.decoded ∧ t.grid = s.grid

/-- 20_memory.md R65: an item the environment supplies goes to the end of RX in every phase, and nothing is consumed. -/
def Obligations.ArrivingItemQueuesAtTheEnd : Prop :=
  ∀ (s : State) (it : RxItem) (rest : List Move), s.sched = .arrive it :: rest →
    step s = .next { s with sched := rest, rx := s.rx ++ [it] }

/-- 60_exceptions.md R232: `abort` during a receive ends it with Aborted(FLEN); the bytes stay, RX keeps its items, and
CHSTATE, EMIS, EVALID and TX are unchanged. -/
def Obligations.AbortEndsTheReceive : Prop :=
  ∀ (s : State) (r : Receive) (rest : List Move), s.rxop = some r → s.sched = .abort :: rest →
    step s = .next { s with
      sched := rest, rxop := none, ecause := 7, einfo := BitVec.ofNat 32 s.flen.toNat,
      eflags := s.eflags ||| 0x80, results := s.results ++ [⟨7, BitVec.ofNat 32 s.flen.toNat⟩] }

/-- 60_exceptions.md R233: `abort` at an idle engine has no effect. -/
def Obligations.AbortAtAnIdleEngineDoesNothing : Prop :=
  ∀ (s : State) (rest : List Move), s.rxop = none → s.sched = .abort :: rest →
    step s = .next { s with sched := rest }

/-- 60_exceptions.md R235: against an item at the front of RX either transition may come first, as the schedule says. The
abort first: Aborted with FLEN and the item left in RX. The item first: an `err` ends the receive with ShortRead, a byte
that completes it ends it with code 0, and the abort then finds the engine idle; after any other byte, Aborted with one
byte more. -/
def Obligations.AbortAndItemInEitherOrder : Prop :=
  ∀ (s : State) (r : Receive) (it : RxItem) (more : List RxItem) (rest : List Move),
    EngineInv s → s.rxop = some r → s.rx = it :: more →
    (s.sched = .abort :: rest → ∃ t, step s = .next t ∧ t.rxop = none ∧ t.rx = s.rx ∧ t.flen = s.flen ∧
      t.chstate = s.chstate ∧ t.results = s.results ++ [⟨7, BitVec.ofNat 32 s.flen.toNat⟩]) ∧
    (s.sched = .run :: .abort :: rest → ∃ t u, step s = .next t ∧ step t = .next u ∧ u.rxop = none ∧ u.rx = more ∧
      (it = .err → u = { t with sched := rest } ∧ u.chstate = .failed ∧ u.flen = s.flen ∧
        u.results = s.results ++ [⟨2, BitVec.ofNat 32 s.flen.toNat⟩]) ∧
      ∀ b, it = .byte b → u.flen.toNat = s.flen.toNat + 1 ∧
        (s.flen.toNat + 1 = r.target.toNat → u = { t with sched := rest } ∧ ∃ v, u.results = s.results ++ [⟨0, v⟩]) ∧
        (s.flen.toNat + 1 ≠ r.target.toNat →
          u.results = s.results ++ [⟨7, BitVec.ofNat 32 (s.flen.toNat + 1)⟩]))

/-- 70_reset_and_hazards.md R260: reset, in any state and phase, leaves the engine's state as 10_state.md R44 lists it,
without a result for an operation in progress and without sending or taking anything. (That the boundary fields stay is
the model's form of 'sends nothing' and of the environment's freedom, log entry 17; that no packet is held is log entry
7.) -/
def Obligations.ResetFromAnyState : Prop :=
  ∀ (s : State) (rest : List Move), s.sched = .reset :: rest → ∃ t, step s = .next t ∧
    t.chstate = .closed ∧ t.rxop = none ∧ t.flen = 0 ∧ t.svalid = false ∧ t.gvalid = false ∧ t.evalid = false ∧
    t.ecause = 0 ∧ t.einfo = 0 ∧ t.eflags = 0 ∧ t.baud = s.baud ∧ (∀ a, Memory.read a t.fb = none) ∧
    t.decoded = none ∧ t.grid = none ∧ t.emis = none ∧ t.tx = s.tx ∧ t.rx = s.rx ∧ t.results = s.results ∧
    t.opens = s.opens ∧ t.openReqs = s.openReqs ∧ t.held = none ∧ t.sched = rest

/-- 60_exceptions.md R246, 30_encoding.md R108: one result per word, in order. A step that is no reset hands over at most
one result, after all earlier ones, and keeps the count of results, operation in progress and words to be issued. -/
def Obligations.EveryWordGetsOneResult : Prop :=
  ∀ s t : State, step s = .next t → s.sched.head? ≠ some .reset →
    accounted t = accounted s ∧ (t.results = s.results ∨ ∃ r, t.results = s.results ++ [r])

/-! ## The receive procedure (40_transport.md R137) -/

/-- R137 **byte**, not the last one: the item is removed, FB[FLEN] holds it, FLEN counts it, every other byte of FB reads
as before, and nothing else changes. -/
def Obligations.ReceivedByteIsStoredAtFlen : Prop :=
  ∀ (s : State) (r : Receive) (b : Byte) (more : List RxItem),
    s.rxop = some r → s.rx = .byte b :: more → s.sched = [] → s.flen.toNat < 1544 → s.flen + 1 ≠ r.target →
    ∃ m : Memory, Memory.read s.flen.toNat m = some b ∧
      (∀ a, a ≠ s.flen.toNat → Memory.read a m = Memory.read a s.fb) ∧
      step s = .next { s with rx := more, fb := m, flen := s.flen + 1 }

/-- R137 **complete**, in the transition of the last byte: PHASE <- IDLE and, for a plain receive, the result (0, FLEN);
for GETEMIS, EMIS <- FB[2], EVALID <- 1 and the result (0, EMIS). -/
def Obligations.LastByteCompletesTheReceive : Prop :=
  ∀ (s : State) (r : Receive) (b : Byte) (more : List RxItem),
    s.rxop = some r → s.rx = .byte b :: more → s.sched = [] → s.flen.toNat < 1544 → s.flen + 1 = r.target →
    ∃ m : Memory, Memory.read s.flen.toNat m = some b ∧
      (∀ a, a ≠ s.flen.toNat → Memory.read a m = Memory.read a s.fb) ∧
      (r.kind = .plain → step s = .next { s with
        rx := more, fb := m, flen := r.target, rxop := none,
        results := s.results ++ [⟨0, BitVec.ofNat 32 r.target.toNat⟩] }) ∧
      (∀ e, r.kind = .emis → Memory.read 2 m = some e → step s = .next { s with
        rx := more, fb := m, flen := r.target, rxop := none, emis := some e,
        results := s.results ++ [⟨0, BitVec.ofNat 32 e.toNat⟩] })

/-- 60_exceptions.md R222: an `err` item ends the receive with ShortRead(FLEN), the bytes stay, CHSTATE becomes FAILED;
in FAILED, READ, QUERY and GETEMIS raise ShortRead(0) and change nothing else; and slowness alone never raises it: with
nothing in RX the state stays as it is. -/
def Obligations.ShortReadOnAnErrItemOrInFailed : Prop :=
  (∀ (s : State) (r : Receive) (more : List RxItem), s.rxop = some r → s.rx = .err :: more → s.sched = [] →
    step s = .next { s with
      rx := more, chstate := .failed, rxop := none, ecause := 2, einfo := BitVec.ofNat 32 s.flen.toNat,
      eflags := s.eflags ||| 0x04, results := s.results ++ [⟨2, BitVec.ofNat 32 s.flen.toNat⟩] }) ∧
  (∀ (s : State) (i : Instr), s.chstate = .failed → s.rxop = none → i.wellFormed = true →
    ((∃ n, i = .read n) ∨ (∃ wop wpl len, i = .query wop wpl len) ∨ i = .getemis) →
    exec i s = .next { s with
      ecause := 2, einfo := 0, eflags := s.eflags ||| 0x04, results := s.results ++ [⟨2, 0⟩] }) ∧
  (∀ (s : State) (r : Receive), s.rxop = some r → s.rx = [] → s.sched = [] → step s = .next s)

/-- R136, R137: READ n on an open channel with at least n bytes at the front of RX completes after n items, with exactly
those bytes in FB[0 .. n-1] in order, FLEN = n, the result (0, n), the rest of RX untouched and everything else
unchanged. -/
def Obligations.ReadCollectsExactlyItsBytes : Prop :=
  ∀ (s : State) (n : Half) (bs : List Byte) (more : List RxItem),
    s.chstate = .opened → s.rxop = none → s.sched = [] → n.toNat ≤ 1544 → bs.length = n.toNat →
    s.rx = bs.map RxItem.byte ++ more →
    ∃ (t : State) (m : Memory), exec (.read n) s = .next t ∧ (∀ k, Memory.read k m = bs[k]?) ∧
      Runs n.toNat t { s with
        rx := more, fb := m, flen := BitVec.ofNat 11 n.toNat,
        results := s.results ++ [⟨0, BitVec.ofNat 32 n.toNat⟩] }

/-- R135, R137, 20_memory.md R75: QUERY puts its packet on TX at once, before an item is taken, and completes after len
items like a READ of len bytes. -/
def Obligations.QuerySendsThenCollectsItsResponse : Prop :=
  ∀ (s : State) (wop wpl len : Byte) (bs : List Byte) (more : List RxItem),
    s.chstate = .opened → s.rxop = none → s.sched = [] → bs.length = len.toNat → s.rx = bs.map RxItem.byte ++ more →
    ∃ (t : State) (m : Memory), exec (.query wop wpl len) s = .next t ∧
      t.tx = s.tx ++ [0xA5, wop, wpl, 0xA5 + wop + wpl] ∧ t.rx = s.rx ∧ (∀ k, Memory.read k m = bs[k]?) ∧
      Runs len.toNat t { s with
        tx := s.tx ++ [0xA5, wop, wpl, 0xA5 + wop + wpl], rx := more, fb := m, flen := BitVec.ofNat 11 len.toNat,
        results := s.results ++ [⟨0, BitVec.ofNat 32 len.toNat⟩] }

/-- R138, R150: GETEMIS sends A5 55 01 FB, takes four items, and latches the byte at index 2, unchecked, as EMIS. -/
def Obligations.GetemisLatchesTheThirdByte : Prop :=
  ∀ (s : State) (b0 b1 b2 b3 : Byte) (more : List RxItem),
    s.chstate = .opened → s.rxop = none → s.sched = [] →
    s.rx = .byte b0 :: .byte b1 :: .byte b2 :: .byte b3 :: more →
    ∃ (t : State) (m : Memory), exec .getemis s = .next t ∧ t.tx = s.tx ++ [0xA5, 0x55, 0x01, 0xFB] ∧
      (∀ k, Memory.read k m = [b0, b1, b2, b3][k]?) ∧
      Runs 4 t { s with
        tx := s.tx ++ [0xA5, 0x55, 0x01, 0xFB], rx := more, fb := m, flen := 4, emis := some b2,
        results := s.results ++ [⟨0, BitVec.ofNat 32 b2.toNat⟩] }

/-! ## The transport operations (40_transport.md) -/

/-- R131, R221: OPEN in CLOSED asks the environment, handing it path and rate, and follows its answer; in OPEN and FAILED it
raises ChannelUnavailable with the CHSTATE found and asks nothing. (The form of the answers, and that no listed answer is
'unavailable', are the model's: log entries 4 and 11.) -/
def Obligations.OpenFollowsTheEnvironment : Prop :=
  ∀ s : State, s.rxop = none →
    (∀ offered rest, s.chstate = .closed → s.opens = .available offered :: rest →
      exec .openCh s = .next { s with
        chstate := .opened, rx := offered, opens := rest,
        openReqs := s.openReqs ++ [⟨Config.devicePath, s.baud⟩], results := s.results ++ [⟨0, 0⟩] }) ∧
    (s.chstate = .closed → s.opens.head? = some .unavailable ∨ s.opens = [] →
      exec .openCh s = .next { s with
        opens := s.opens.tail, openReqs := s.openReqs ++ [⟨Config.devicePath, s.baud⟩],
        ecause := 1, einfo := 0, eflags := s.eflags ||| 0x02, results := s.results ++ [⟨1, 0⟩] }) ∧
    (s.chstate = .opened → exec .openCh s = .next { s with
      ecause := 1, einfo := 1, eflags := s.eflags ||| 0x02, results := s.results ++ [⟨1, 1⟩] }) ∧
    (s.chstate = .failed → exec .openCh s = .next { s with
      ecause := 1, einfo := 2, eflags := s.eflags ||| 0x02, results := s.results ++ [⟨1, 2⟩] })

/-- R132: CLOSE changes CHSTATE alone, in every state, and closing twice is closing once but for the second result. -/
def Obligations.CloseIsIdempotent : Prop :=
  ∀ s : State,
    exec .close s = .next { s with chstate := .closed, results := s.results ++ [⟨0, 0⟩] } ∧
    exec .close { s with chstate := .closed, results := s.results ++ [⟨0, 0⟩] } =
      .next { s with chstate := .closed, results := s.results ++ [⟨0, 0⟩, ⟨0, 0⟩] }

/-- R133: SEND in OPEN and in FAILED appends its four bytes to TX and changes nothing else. -/
def Obligations.SendAppendsItsPacket : Prop :=
  ∀ (s : State) (wop wpl : Byte), s.chstate = .opened ∨ s.chstate = .failed →
    exec (.send wop wpl) s = .next { s with
      tx := s.tx ++ [0xA5, wop, wpl, 0xA5 + wop + wpl], results := s.results ++ [⟨0, 0⟩] }

/-- R136, R137 **start**: READ n on an open channel empties FB; for n = 0 it completes at once with (0, 0), else it waits
for n bytes. It sends and takes nothing. -/
def Obligations.ReadStartsItsReceive : Prop :=
  ∀ (s : State) (n : Half), s.chstate = .opened → s.rxop = none → n.toNat ≤ 1544 →
    (n = 0 → exec (.read n) s = .next { s with fb := [], flen := 0, results := s.results ++ [⟨0, 0⟩] }) ∧
    (n ≠ 0 → exec (.read n) s = .next { s with
      fb := [], flen := 0, rxop := some ⟨BitVec.ofNat 11 n.toNat, .plain⟩ })

/-- R135, R138, R137 **start**: QUERY and GETEMIS on an open channel send their packet, empty FB and wait for the
response; QUERY with length 0 completes at once without touching RX. -/
def Obligations.QueriesStartTheirReceive : Prop :=
  ∀ (s : State) (wop wpl len : Byte), s.chstate = .opened → s.rxop = none →
    (len = 0 → exec (.query wop wpl len) s = .next { s with
      tx := s.tx ++ [0xA5, wop, wpl, 0xA5 + wop + wpl], fb := [], flen := 0, results := s.results ++ [⟨0, 0⟩] }) ∧
    (len ≠ 0 → exec (.query wop wpl len) s = .next { s with
      tx := s.tx ++ [0xA5, wop, wpl, 0xA5 + wop + wpl], fb := [], flen := 0,
      rxop := some ⟨BitVec.ofNat 11 len.toNat, .plain⟩ }) ∧
    exec .getemis s = .next { s with
      tx := s.tx ++ [0xA5, 0x55, 0x01, 0xFB], fb := [], flen := 0, rxop := some ⟨4, .emis⟩ }

/-- R146: SHUTDOWN sends A5 35 01 DB unless the channel is closed, closes it, and never faults. -/
def Obligations.ShutdownStopsAndCloses : Prop :=
  ∀ s : State,
    (s.chstate ≠ .closed → exec .shutdown s = .next { s with
      tx := s.tx ++ [0xA5, 0x35, 0x01, 0xDB], chstate := .closed, results := s.results ++ [⟨0, 0⟩] }) ∧
    (s.chstate = .closed → exec .shutdown s = .next { s with results := s.results ++ [⟨0, 0⟩] })

/-- 70_reset_and_hazards.md R265: on an open or failed channel SHUTDOWN leaves what SEND 0x35, 0x01 then CLOSE leave, but
for the number of results; on a closed one the SEND faults NotOpen. -/
def Obligations.ShutdownIsSendStopThenClose : Prop :=
  ∀ s : State,
    (s.chstate ≠ .closed → ∃ t u v, exec .shutdown s = .next t ∧ exec (.send 0x35 0x01) s = .next u ∧
      exec .close u = .next v ∧ v = { t with results := t.results ++ [⟨0, 0⟩] }) ∧
    (s.chstate = .closed → s.rxop = none → ∃ u, exec (.send 0x35 0x01) s = .next u ∧
      u.results = s.results ++ [⟨4, 0x03350100⟩] ∧ u.tx = s.tx)

/-- 60_exceptions.md R224: in CLOSED, SEND, QUERY, READ and GETEMIS raise NotOpen with the operation word, and nothing is
sent, taken or changed but the fault registers. -/
def Obligations.ChannelOperationsInClosedRaiseNotOpen : Prop :=
  ∀ (s : State) (i : Instr), s.chstate = .closed → s.rxop = none → i.wellFormed = true →
    ((∃ wop wpl, i = .send wop wpl) ∨ (∃ wop wpl len, i = .query wop wpl len) ∨ (∃ n, i = .read n) ∨ i = .getemis) →
    exec i s = .next { s with
      ecause := 4, einfo := encode i, eflags := s.eflags ||| 0x10, results := s.results ++ [⟨4, encode i⟩] }

/-- 60_exceptions.md R240: FAILED lasts until CLOSE, SHUTDOWN or reset: whatever step is taken from a state with
CHSTATE = FAILED, CHSTATE is FAILED after it unless its move is one of those; and it takes no item and no byte into FB. -/
def Obligations.FailedLastsUntilClosed : Prop :=
  ∀ s t : State, s.chstate = .failed → s.rxop = none → step s = .next t →
    s.sched.head? ≠ some .reset → s.sched.head? ≠ some (.word 0x02000000) → s.sched.head? ≠ some (.word 0x0B000000) →
    t.chstate = .failed ∧ t.rxop = none ∧ t.fb = s.fb ∧ t.flen = s.flen ∧
      (t.rx = s.rx ∨ ∃ it, t.rx = s.rx ++ [it])

/-! ## The frame parser (41_decode.md) -/

/-- R170, 60_exceptions.md R223: DECODE with FLEN other than 1544 raises MalformedFrame(FLEN) and leaves no decoded frame
and no image; FB and FLEN stay. -/
def Obligations.DecodeRejectsAnyOtherLength : Prop :=
  ∀ s : State, s.rxop = none → s.flen.toNat ≠ 1544 →
    exec .decode s = .next { s with
      decoded := none, grid := none, ecause := 3, einfo := BitVec.ofNat 32 s.flen.toNat,
      eflags := s.eflags ||| 0x08, results := s.results ++ [⟨3, BitVec.ofNat 32 s.flen.toNat⟩] }

/-- R171 to R173, with R170 and R177: DECODE of a full buffer completes in every CHSTATE, writes the decoded frame, clears
GVALID and changes nothing else; AMB and every sample are the little-endian fields of the buffer, AMB unsigned and the
samples signed; TMIN and TMAX are the least and greatest sample, and RLO and RHI follow them. -/
def Obligations.DecodeParsesTheFrame : Prop :=
  ∀ s : State, s.flen.toNat = 1544 → (∀ a, a < 1544 → (Memory.read a s.fb).isSome = true) →
    ∃ d : Decoded, exec .decode s = .next { s with
        decoded := some d, grid := none, results := s.results ++ [⟨0, 0⟩] } ∧
      (∀ lo hi, Memory.read 1540 s.fb = some lo → Memory.read 1541 s.fb = some hi →
        d.amb.toNat = lo.toNat + 256 * hi.toNat) ∧
      (∀ (i : Fin 768) (lo hi : Byte), Memory.read (4 + 2 * i.val) s.fb = some lo →
        Memory.read (5 + 2 * i.val) s.fb = some hi →
        d.samples[i].toInt = (if 32768 ≤ lo.toNat + 256 * hi.toNat then
          (lo.toNat + 256 * hi.toNat : Int) - 65536 else lo.toNat + 256 * hi.toNat)) ∧
      Extrema d.tmin d.tmax d.samples ∧ d.rlo = d.tmin ∧ d.rhi = d.tmax

/-- R176: what DECODE writes depends on FB[4 .. 1541] alone: two engines that agree on those bytes, whatever their headers,
last bytes, channels, earlier frames and streams, decode the same frame. -/
def Obligations.DecodeDependsOnTheFieldsAlone : Prop :=
  ∀ s s' t t' : State, s.flen.toNat = 1544 → s'.flen.toNat = 1544 →
    (∀ a, 4 ≤ a → a ≤ 1541 → Memory.read a s.fb = Memory.read a s'.fb) →
    exec .decode s = .next t → exec .decode s' = .next t' → t.decoded = t'.decoded ∧ t.svalid = true

/-- R175: what holds after a DECODE that completes: (a) every sample lies between TMIN and TMAX, (b) both are samples, (c)
they are equal exactly when all samples are, (d) RLO and RHI are they, (e) they differ by 0 to 65535. -/
def Obligations.CompletedDecodeHasTrueExtrema : Prop :=
  ∀ s t : State, s.flen.toNat = 1544 → exec .decode s = .next t → ∃ d, t.decoded = some d ∧
    (∀ i : Fin 768, d.tmin.toInt ≤ d.samples[i].toInt ∧ d.samples[i].toInt ≤ d.tmax.toInt) ∧
    (∃ j k : Fin 768, d.samples[j] = d.tmin ∧ d.samples[k] = d.tmax) ∧
    (d.tmin = d.tmax ↔ ∀ i j : Fin 768, d.samples[i] = d.samples[j]) ∧
    d.rlo = d.tmin ∧ d.rhi = d.tmax ∧
    0 ≤ d.tmax.toInt - d.tmin.toInt ∧ d.tmax.toInt - d.tmin.toInt ≤ 65535

/-- R174: no grouping and no order of the 768 samples changes TMIN and TMAX: a reduction of two parts joined by one
comparison, and a reduction of any rearrangement, give the same. -/
def Obligations.ReductionOrderDoesNotMatter : Prop :=
  (∀ (v : Vector Sample 768) (front back : List Sample), v.toList = front ++ back →
    minOf v = smin (front.foldl smin 0x7FFF) (back.foldl smin 0x7FFF) ∧
    maxOf v = smax (front.foldl smax 0x8000) (back.foldl smax 0x8000)) ∧
  ∀ v u : Vector Sample 768, v.toList.Perm u.toList → minOf v = minOf u ∧ maxOf v = maxOf u

/-! ## The quantiser (42_normalize.md) -/

/-- R190, R191: SETLO and SETHI with a decoded frame write RLO, RHI alone, the operand as it stands, and leave the image
and GVALID. -/
def Obligations.SetRangeWritesOneEnd : Prop :=
  ∀ (s : State) (d : Decoded) (v : Sample), s.decoded = some d →
    exec (.setlo v) s = .next { s with decoded := some { d with rlo := v }, results := s.results ++ [⟨0, 0⟩] } ∧
    exec (.sethi v) s = .next { s with decoded := some { d with rhi := v }, results := s.results ++ [⟨0, 0⟩] }

/-- R192: NORM with a decoded frame writes every cell G[i] = Q(S[i], RLO, RHI), sets GVALID and changes nothing else, in
every CHSTATE. -/
def Obligations.NormQuantisesEveryCell : Prop :=
  ∀ (s : State) (d : Decoded), s.decoded = some d → ∃ g : Vector Byte 768,
    exec .norm s = .next { s with grid := some g, results := s.results ++ [⟨0, 0⟩] } ∧
    ∀ i : Fin 768, g[i] = quantise d.samples[i] d.rlo d.rhi

/-- R193 to R195: the quantiser is the clamp of the exact rational value rounded to nearest with ties upward, and the
integer form of R195 gives the same byte for every input. -/
def Obligations.QuantiserIsTheExactRoundedQuotient : Prop :=
  ∀ v lo hi : Sample,
    (hi = lo → quantise v lo hi = 128) ∧
    (hi ≠ lo →
      ((quantise v lo hi).toNat : Int) = max 0 (min 255
        ⌊((v.toInt : ℚ) - (lo.toInt : ℚ)) * 255 / ((hi.toInt : ℚ) - (lo.toInt : ℚ)) + 1 / 2⌋) ∧
      ∃ n d : Int, 0 < d ∧
        ((n = v.toInt - lo.toInt ∧ d = hi.toInt - lo.toInt) ∨ (n = -(v.toInt - lo.toInt) ∧ d = -(hi.toInt - lo.toInt))) ∧
        ((quantise v lo hi).toNat : Int) = max 0 (min 255 (Int.fdiv (510 * n + d) (2 * d))))

/-- R193 with 00_scope.md R13: in degrees, all three as `deg` shows them, the source's formula gives the same byte: no
division by 100 is missing and none is done twice (R271). -/
def Obligations.QuantiserAgreesInDegrees : Prop :=
  ∀ v lo hi : Sample, hi ≠ lo →
    ((quantise v lo hi).toNat : Int) = max 0 (min 255
      ⌊(deg v.toInt - deg lo.toInt) * 255 / (deg hi.toInt - deg lo.toInt) + 1 / 2⌋)

/-- R200 (b), (c), R199: the ends of a range map to 0 and 255, the map is monotone for lo < hi, and its order reverses for
hi < lo. -/
def Obligations.QuantiserIsMonotoneWithExactEnds : Prop :=
  ∀ lo hi : Sample,
    (lo ≠ hi → quantise lo lo hi = 0 ∧ quantise hi lo hi = 255) ∧
    (∀ a b : Sample, lo.toInt < hi.toInt → a.toInt < b.toInt →
      (quantise a lo hi).toNat ≤ (quantise b lo hi).toNat) ∧
    (∀ a b : Sample, hi.toInt < lo.toInt → a.toInt < b.toInt →
      (quantise b lo hi).toNat ≤ (quantise a lo hi).toNat)

/-- R198: the clamp saturates and does not wrap: with a proper range, every sample at or below its lower end gives 0 and
every sample at or above its upper end gives 255. -/
def Obligations.ClampSaturatesOutsideTheRange : Prop :=
  ∀ v lo hi : Sample, lo.toInt < hi.toInt →
    (v.toInt ≤ lo.toInt → quantise v lo hi = 0) ∧ (hi.toInt ≤ v.toInt → quantise v lo hi = 255)

/-- R197, 60_exceptions.md R228: with RHI = RLO, NORM completes with code 0, every cell is 128 whatever the samples are,
and no fault register is touched. -/
def Obligations.ZeroRangeGivesTheConstant : Prop :=
  ∀ (s : State) (d : Decoded), s.decoded = some d → d.rhi = d.rlo → ∃ t g,
    exec .norm s = .next t ∧ t.grid = some g ∧ (∀ i : Fin 768, g[i] = 128) ∧ t.gvalid = true ∧
    t.results = s.results ++ [⟨0, 0⟩] ∧ t.ecause = s.ecause ∧ t.einfo = s.einfo ∧ t.eflags = s.eflags

/-- R196: the widths of the quantiser's intermediate values, and that inside a proper range the quotient needs no clamp. -/
def Obligations.QuantiserIntermediatesFitTheirWidths : Prop :=
  ∀ v lo hi : Sample,
    let n := v.toInt - lo.toInt
    let d := hi.toInt - lo.toInt
    (-65535 ≤ n ∧ n ≤ 65535) ∧ (-65535 ≤ d ∧ d ≤ 65535) ∧
    (-33422850 ≤ 510 * n ∧ 510 * n ≤ 33422850) ∧
    (-33488385 ≤ 510 * n + d ∧ 510 * n + d ≤ 33488385) ∧ (-33488385 ≤ 510 * n - d ∧ 510 * n - d ≤ 33488385) ∧
    (-131070 ≤ 2 * d ∧ 2 * d ≤ 131070) ∧
    (d ≠ 0 → -16711425 ≤ quotient n d ∧ quotient n d ≤ 16711425) ∧
    (lo.toInt ≤ v.toInt → v.toInt ≤ hi.toInt → lo.toInt < hi.toInt → 0 ≤ quotient n d ∧ quotient n d ≤ 255)

/-- R200 (d): NORM on the range DECODE left: a cell of the frame's minimum gives 0 and one of its maximum 255, unless all
samples are equal, when every cell gives 128; and no cell needs the clamp. -/
def Obligations.FreshFrameUsesTheFullScale : Prop :=
  ∀ s t u : State, s.flen.toNat = 1544 → exec .decode s = .next t → exec .norm t = .next u →
    ∃ d g, t.decoded = some d ∧ u.grid = some g ∧
      (d.tmin ≠ d.tmax → ∀ i : Fin 768,
        (d.samples[i] = d.tmin → g[i] = 0) ∧ (d.samples[i] = d.tmax → g[i] = 255) ∧
        0 ≤ quotient (d.samples[i].toInt - d.rlo.toInt) (d.rhi.toInt - d.rlo.toInt) ∧
        quotient (d.samples[i].toInt - d.rlo.toInt) (d.rhi.toInt - d.rlo.toInt) ≤ 255) ∧
      (d.tmin = d.tmax → ∀ i : Fin 768, g[i] = 128)

/-! ## Readout (43_readout.md) -/

/-- R210, 10_state.md R40: RDREG returns each of the twelve registers, zero-extended or for the signed ones sign-extended;
NoValidData where the valid bit is 0; IllegalOp over 11. -/
def Obligations.RdregReturnsEachRegister : Prop :=
  ∀ s : State, s.rxop = none →
    let ok (r : Byte) (v : Word) : Prop := exec (.rdreg r) s = .next { s with results := s.results ++ [⟨0, v⟩] }
    let noData (r : Byte) : Prop := exec (.rdreg r) s = .next { s with
      ecause := 6, einfo := encode (.rdreg r), eflags := s.eflags ||| 0x40,
      results := s.results ++ [⟨6, encode (.rdreg r)⟩] }
    (ok 0 s.status ∧ ok 1 (BitVec.ofNat 32 s.ecause.toNat) ∧ ok 2 s.einfo ∧ ok 3 (BitVec.ofNat 32 s.eflags.toNat) ∧
      ok 4 (BitVec.ofNat 32 s.flen.toNat) ∧ ok 11 s.baud) ∧
    (∀ d, s.decoded = some d → ok 5 (BitVec.ofNat 32 d.amb.toNat) ∧ ok 6 (BitVec.ofInt 32 d.tmin.toInt) ∧
      ok 7 (BitVec.ofInt 32 d.tmax.toInt) ∧ ok 8 (BitVec.ofInt 32 d.rlo.toInt) ∧ ok 9 (BitVec.ofInt 32 d.rhi.toInt)) ∧
    (s.decoded = none → noData 5 ∧ noData 6 ∧ noData 7 ∧ noData 8 ∧ noData 9) ∧
    (∀ e, s.emis = some e → ok 10 (BitVec.ofNat 32 e.toNat)) ∧ (s.emis = none → noData 10) ∧
    (∀ r : Byte, 11 < r.toNat → exec (.rdreg r) s = .next { s with
      ecause := 5, einfo := encode (.rdreg r), eflags := s.eflags ||| 0x20,
      results := s.results ++ [⟨5, encode (.rdreg r)⟩] })

/-- R211: RDFB returns the byte at its address below FLEN; NoValidData at or beyond FLEN; IllegalOp past 1543. -/
def Obligations.RdfbReturnsTheByteBelowFlen : Prop :=
  ∀ (s : State) (a : Half), s.rxop = none →
    (∀ b, a.toNat ≤ 1543 → a.toNat < s.flen.toNat → Memory.read a.toNat s.fb = some b →
      exec (.rdfb a) s = .next { s with results := s.results ++ [⟨0, BitVec.ofNat 32 b.toNat⟩] }) ∧
    (a.toNat ≤ 1543 → s.flen.toNat ≤ a.toNat → exec (.rdfb a) s = .next { s with
      ecause := 6, einfo := encode (.rdfb a), eflags := s.eflags ||| 0x40,
      results := s.results ++ [⟨6, encode (.rdfb a)⟩] }) ∧
    (1543 < a.toNat → exec (.rdfb a) s = .next { s with
      ecause := 5, einfo := encode (.rdfb a), eflags := s.eflags ||| 0x20,
      results := s.results ++ [⟨5, encode (.rdfb a)⟩] })

/-- R212, R213: RDS returns the sample sign-extended and RDG the cell zero-extended, at every index to 767; IllegalOp
past it, whether or not there is data. -/
def Obligations.RdsAndRdgReturnTheElement : Prop :=
  ∀ (s : State) (i : Half), s.rxop = none →
    (∀ (d : Decoded) (h : i.toNat < 768), s.decoded = some d →
      exec (.rds i) s = .next { s with
        results := s.results ++ [⟨0, BitVec.ofInt 32 (d.samples[i.toNat]'h).toInt⟩] }) ∧
    (∀ (g : Vector Byte 768) (h : i.toNat < 768), s.grid = some g →
      exec (.rdg i) s = .next { s with
        results := s.results ++ [⟨0, BitVec.ofNat 32 (g[i.toNat]'h).toNat⟩] }) ∧
    (767 < i.toNat →
      exec (.rds i) s = .next { s with
        ecause := 5, einfo := encode (.rds i), eflags := s.eflags ||| 0x20,
        results := s.results ++ [⟨5, encode (.rds i)⟩] } ∧
      exec (.rdg i) s = .next { s with
        ecause := 5, einfo := encode (.rdg i), eflags := s.eflags ||| 0x20,
        results := s.results ++ [⟨5, encode (.rdg i)⟩] })

/-- R214: a readout operation that completes changes no state at all (but that its result is handed over), and repeated it
gives the same value; in every CHSTATE it ends with its value or a usage fault and never stops. -/
def Obligations.ReadoutChangesNothing : Prop :=
  ∀ (s : State) (i : Instr), s.rxop = none →
    ((∃ r, i = .rdreg r) ∨ (∃ a, i = .rdfb a) ∨ (∃ k, i = .rds k) ∨ ∃ k, i = .rdg k) →
    (∃ v, exec i s = .next { s with results := s.results ++ [⟨0, v⟩] } ∧
      exec i { s with results := s.results ++ [⟨0, v⟩] } = .next { s with results := s.results ++ [⟨0, v⟩, ⟨0, v⟩] }) ∨
    ∃ f : EngineFault, (f = .illegalOp ∨ f = .noValidData) ∧ exec i s = .next { s with
      ecause := f.code, einfo := encode i, eflags := s.eflags ||| ((1 : Byte) <<< f.code.toNat),
      results := s.results ++ [⟨f.code, encode i⟩] }

/-- 60_exceptions.md R226: every read of state that has no value raises NoValidData with the operation word and leaves the
state concerned as it was. -/
def Obligations.ReadingUnwrittenStateRaisesNoValidData : Prop :=
  ∀ (s : State) (i : Instr), s.rxop = none → i.wellFormed = true →
    ((s.svalid = false ∧ (i = .norm ∨ (∃ v, i = .setlo v) ∨ (∃ v, i = .sethi v) ∨ (∃ k, i = .rds k) ∨
        i = .rdreg 5 ∨ i = .rdreg 6 ∨ i = .rdreg 7 ∨ i = .rdreg 8 ∨ i = .rdreg 9)) ∨
      (s.gvalid = false ∧ ∃ k, i = .rdg k) ∨ (s.evalid = false ∧ i = .rdreg 10) ∨
      ∃ a : Half, s.flen.toNat ≤ a.toNat ∧ i = .rdfb a) →
    exec i s = .next { s with
      ecause := 6, einfo := encode i, eflags := s.eflags ||| 0x40, results := s.results ++ [⟨6, encode i⟩] }

/-! ## Wire packets (40_transport.md R150 to R154) -/

/-- R150 to R154: each wire command puts its four bytes on TX, in order, on an open or failed channel, and changes nothing
else; on a closed one nothing goes out (20_memory.md R67; log entry 7). -/
def Obligations.WireCommandsPutTheirBytesOnTx : Prop :=
  ∀ s : State,
    (s.chstate ≠ .closed →
      exec .wQemis s = .next { s with tx := s.tx ++ [0xA5, 0x55, 0x01, 0xFB] } ∧
      exec .wSetfps8 s = .next { s with tx := s.tx ++ [0xA5, 0x25, 0x04, 0xCE] } ∧
      exec .wStart s = .next { s with tx := s.tx ++ [0xA5, 0x35, 0x02, 0xDC] } ∧
      exec .wStop s = .next { s with tx := s.tx ++ [0xA5, 0x35, 0x01, 0xDB] } ∧
      ∀ wop wpl : Byte, exec (.wCmd wop wpl) s = .next { s with tx := s.tx ++ [0xA5, wop, wpl, 0xA5 + wop + wpl] }) ∧
    (s.chstate = .closed → exec .wQemis s = .next s ∧ exec .wSetfps8 s = .next s ∧ exec .wStart s = .next s ∧
      exec .wStop s = .next s ∧ ∀ wop wpl : Byte, exec (.wCmd wop wpl) s = .next s)

/-! ## State, faults and the whole machine -/

/-- 10_state.md R44: what reset leaves of the engine's state. (BAUD's value 115200 is that of the base configuration, R8;
the boundary fields and `held` are the model's, log entries 3 to 7, 11.) -/
def Obligations.ResetLeavesTheListedValues : Prop :=
  State.reset.chstate = .closed ∧ State.reset.waiting = false ∧ State.reset.flen = 0 ∧ State.reset.svalid = false ∧
  State.reset.gvalid = false ∧ State.reset.evalid = false ∧ State.reset.ecause = 0 ∧ State.reset.einfo = 0 ∧
  State.reset.eflags = 0 ∧ State.reset.baud = 115200 ∧ (∀ a, Memory.read a State.reset.fb = none) ∧
  State.reset.decoded = none ∧ State.reset.grid = none ∧ State.reset.emis = none ∧ State.reset.rxop = none ∧
  State.reset.tx = [] ∧ State.reset.held = none

/-- 60_exceptions.md R236, with the codes of R220: fault entry writes ECAUSE, EINFO and the fault's bit of EFLAGS, makes the
engine idle, hands over (k, info), and changes nothing else. -/
def Obligations.FaultEntryDoesExactlyThis : Prop :=
  ∀ (s : State) (info : Word) (f : EngineFault) (k : Byte),
    (f, k) ∈ [(EngineFault.channelUnavailable, (1 : Byte)), (.shortRead, 2), (.malformedFrame, 3), (.notOpen, 4),
      (.illegalOp, 5), (.noValidData, 6), (.aborted, 7)] →
    s.raise f info = { s with
      ecause := k, einfo := info, eflags := (s.raise f info).eflags, rxop := none, results := s.results ++ [⟨k, info⟩] } ∧
    ∀ n, n < 8 → (s.raise f info).eflags.getLsbD n = (s.eflags.getLsbD n || n == k.toNat)

/-- 10_state.md R38, 60_exceptions.md R239: no step but reset clears a bit of EFLAGS or changes ECAUSE and EINFO except by
the fault it reports; so a state with EFLAGS = 0 was reached without a fault since reset. Reset clears all three. -/
def Obligations.OnlyResetClearsTheFaultRegisters : Prop :=
  ∀ s t : State, step s = .next t →
    (s.sched.head? ≠ some .reset →
      (∀ n, s.eflags.getLsbD n = true → t.eflags.getLsbD n = true) ∧ (FaultFree t → FaultFree s) ∧
      ((t.ecause = s.ecause ∧ t.einfo = s.einfo ∧ t.eflags = s.eflags ∧
          (t.results = s.results ∨ ∃ v, t.results = s.results ++ [⟨0, v⟩])) ∨
        (t.ecause ≠ 0 ∧ t.results = s.results ++ [⟨t.ecause, t.einfo⟩] ∧
          t.eflags = s.eflags ||| ((1 : Byte) <<< t.ecause.toNat)))) ∧
    (s.sched.head? = some .reset → t.ecause = 0 ∧ t.einfo = 0 ∧ t.eflags = 0)

/-- 10_state.md R31: the codes of CHSTATE, of which 3 is never taken, and its transitions, complete. A step that changes it
is one of these: an OPEN answered available, from CLOSED to OPEN; an `err` taken by a receive, to FAILED and, in every
state that meets the invariant, from OPEN; CLOSE or SHUTDOWN, to CLOSED; reset, to CLOSED. And each of these does as the
table says. -/
def Obligations.ChannelStateChangesAreThoseListed : Prop :=
  (ChState.closed.code = 0 ∧ ChState.opened.code = 1 ∧ ChState.failed.code = 2 ∧ ∀ c : ChState, c.code ≠ 3) ∧
  (∀ s t : State, step s = .next t → t.chstate ≠ s.chstate →
    (s.chstate = .closed ∧ t.chstate = .opened ∧ s.rxop = none ∧ s.sched.head? = some (.word 0x01000000) ∧
      ∃ offered, s.opens.head? = some (.available offered)) ∨
    ((EngineInv s → s.chstate = .opened) ∧ t.chstate = .failed ∧ s.waiting = true ∧ s.rx.head? = some .err ∧
      t.results.getLast?.map OpResult.code = some 2) ∨
    (t.chstate = .closed ∧ s.rxop = none ∧
      (s.sched.head? = some (.word 0x02000000) ∨ s.sched.head? = some (.word 0x0B000000))) ∨
    (t.chstate = .closed ∧ s.sched.head? = some .reset)) ∧
  (∀ (s : State) (offered : List RxItem) (rest : List OpenAnswer), s.chstate = .closed →
    (s.opens = .available offered :: rest → ∃ t, exec .openCh s = .next t ∧ t.chstate = .opened) ∧
    (s.opens = .unavailable :: rest → ∃ t, exec .openCh s = .next t ∧ t.chstate = .closed)) ∧
  (∀ (s : State) (r : Receive) (rest : List RxItem), s.rxop = some r → s.rx = .err :: rest → s.sched = [] →
    ∃ t, step s = .next t ∧ t.chstate = .failed) ∧
  (∀ s : State, (∃ t, exec .close s = .next t ∧ t.chstate = .closed) ∧
    ∃ t, exec .shutdown s = .next t ∧ t.chstate = .closed) ∧
  ∀ (s : State) (rest : List Move), s.sched = .reset :: rest → ∃ t, step s = .next t ∧ t.chstate = .closed

/-- 10_state.md R43, the frame of every instruction: what `exec` leaves unchanged for an idle engine, state by state, and
what a receive in progress may write. (EMIS, EVALID and FAILED are written where a receive ends: the second part; what it
writes to FB, FLEN, PHASE and the fault registers stands in ReceivedByteIsStoredAtFlen, LastByteCompletesTheReceive and
ShortReadOnAnErrItemOrInFailed.) R43 has no column for RX and no row for wire packets: that only OPEN changes `rx`,
`opens` and `openReqs` is 20_memory.md R67 and 40_transport.md R137 in the form of log entries 4 and 11, and that a wire
packet run by itself writes TX (the disjunct `i.isHostOp = false`) and `held` stays is log entry 7, the model's choices. -/
def Obligations.WriteMatrix : Prop :=
  (∀ (s t : State) (i : Instr), s.rxop = none → exec i s = .next t →
    (t.chstate = s.chstate ∨ i = .openCh ∨ i = .close ∨ i = .shutdown) ∧
    ((t.fb = s.fb ∧ t.flen = s.flen ∧ t.rxop = none) ∨
      (∃ n, i = .read n) ∨ (∃ wop wpl len, i = .query wop wpl len) ∨ i = .getemis) ∧
    (t.decoded = s.decoded ∨ i = .decode ∨
      (∃ d v, i = .setlo v ∧ s.decoded = some d ∧ t.decoded = some { d with rlo := v }) ∨
      ∃ d v, i = .sethi v ∧ s.decoded = some d ∧ t.decoded = some { d with rhi := v }) ∧
    (t.grid = s.grid ∨ i = .norm ∨ (i = .decode ∧ t.grid = none)) ∧
    t.emis = s.emis ∧ t.baud = s.baud ∧ t.held = s.held ∧ t.sched = s.sched ∧
    (t.tx = s.tx ∨ i = .shutdown ∨ i = .getemis ∨ (∃ wop wpl, i = .send wop wpl) ∨
      (∃ wop wpl len, i = .query wop wpl len) ∨ i.isHostOp = false) ∧
    ((t.rx = s.rx ∧ t.opens = s.opens ∧ t.openReqs = s.openReqs) ∨ i = .openCh) ∧
    ((t.ecause = s.ecause ∧ t.einfo = s.einfo ∧ t.eflags = s.eflags) ∨
      t.results = s.results ++ [⟨t.ecause, t.einfo⟩])) ∧
  (∀ (s t : State) (r : Receive), s.rxop = some r → s.sched = [] → step s = .next t →
    (t.chstate = s.chstate ∨ t.chstate = .failed) ∧ (t.emis = s.emis ∨ (r.kind = .emis ∧ t.rxop = none)) ∧
    t.decoded = s.decoded ∧ t.grid = s.grid ∧ t.baud = s.baud ∧ t.tx = s.tx ∧ t.opens = s.opens ∧
    t.openReqs = s.openReqs ∧ t.held = s.held ∧ t.sched = s.sched)

/-- 10_state.md R34: the fields of STATUS, and that bits 31:5 read as 0. -/
def Obligations.StatusShowsChannelAndValidBits : Prop :=
  ∀ s : State, s.status.toNat =
    s.chstate.code.toNat + (if s.svalid then 4 else 0) + (if s.gvalid then 8 else 0) + (if s.evalid then 16 else 0)

/-- 30_encoding.md R104, 60_exceptions.md R234: a host operation whose operand is out of range raises IllegalOp in every
state, before any channel or data condition is looked at. (That `exec` is given such a term at all is the model's form,
log entry 16.) -/
def Obligations.OutOfRangeOperandsRaiseIllegalOp : Prop :=
  ∀ (s : State) (i : Instr), s.rxop = none → i.isHostOp = true → i.wellFormed = false →
    exec i s = .next { s with
      ecause := 5, einfo := encode i, eflags := s.eflags ||| 0x20, results := s.results ++ [⟨5, encode i⟩] }

/-- The invariant holds at reset. -/
def Obligations.ResetMeetsTheInvariant : Prop := EngineInv State.reset

/-- Every step keeps the invariant: FB filled exactly below FLEN (10_state.md R30), a receive in progress only on an open
channel (R31, R32), TMIN and TMAX the extrema of S (R23), an image only with its frame (R35), the fault registers in
agreement (R36 to R38), TX in whole packets (20_memory.md R64), and no packet held between operations (30_encoding.md
R96). -/
def Obligations.EveryStepKeepsTheInvariant : Prop :=
  ∀ s t : State, EngineInv s → step s = .next t → EngineInv t

/-- 93_implementation_defined.md part 1, R104: every operation word, in every state, with every environment, has a result:
from a state that meets the invariant no step stops with a fault or a refusal. (That a receive with nothing to take also
answers a step, one that leaves the state as it is, is log entry 18.) -/
def Obligations.NoStepStopsFromTheInvariant : Prop :=
  ∀ s : State, EngineInv s → ∃ t, step s = .next t

/-- 00_scope.md R6, 30_encoding.md R96: nothing but the engine, executing an operation, puts a byte on TX. In a state that
meets the invariant, a step that changes TX accepts a SEND, QUERY, GETEMIS or SHUTDOWN from the host, with the engine idle
and the channel open or failed (40_transport.md R133, R135, R138, R146); no move of the environment, no abort, no reset and
no engine turn does. -/
def Obligations.TxGrowsOnlyInsideAnOperation : Prop :=
  ∀ s t : State, EngineInv s → step s = .next t → t.tx ≠ s.tx →
    s.rxop = none ∧ s.chstate ≠ .closed ∧
    ∃ (w : Word) (i : Instr) (rest : List Move), s.sched = .word w :: rest ∧ decodeHost w = .ok i ∧
      (i = .shutdown ∨ i = .getemis ∨ (∃ wop wpl, i = .send wop wpl) ∨ ∃ wop wpl len, i = .query wop wpl len)
end

