-- ==== Sys2Proof/Laws/Operands.lean ====
section
/-! SUPPORT. The laws of arrays, of the two conversions, and of the reductions (00_scope.md R11, 41_decode.md R173). -/

namespace Sys2Proof.Machine

@[simp] theorem tabulate_getElem {α : Type} {n : Nat} (f : Fin n → α) (i : Nat) (h : i < n) :
    (tabulate f)[i] = f ⟨i, h⟩ := by
  simp [tabulate]

@[simp] theorem lanes_getElem {α β : Type} {n : Nat} (f : α → β) (v : Vector α n) (i : Nat) (h : i < n) :
    (lanes f v)[i] = f v[i] := by
  simp [lanes]

/-- `collect` answers an array exactly when every element has a value, and it holds those values. -/
theorem collect_eq_some {α : Type} {n : Nat} {f : Nat → Option α} {v : Vector α n} :
    collect n f = some v ↔ ∀ (i : Nat) (h : i < n), f i = some v[i] := by
  unfold collect
  constructor
  · intro h
    split at h
    · cases h
      intro i hi
      simp
    · cases h
  · intro h
    have hs : ∀ i : Fin n, (f i).isSome = true := fun i => by simp [h i.1 i.2]
    rw [dif_pos hs]
    congr 1
    ext i hi
    simp [h i hi]

/-- `collect` answers an array when every element has a value. -/
theorem collect_isSome {α : Type} {n : Nat} {f : Nat → Option α} (h : ∀ i, i < n → (f i).isSome = true) :
    (collect n f).isSome = true := by
  have hs : ∀ i : Fin n, (f i).isSome = true := fun i => h i.1 i.2
  simp [collect, hs]

theorem u16le_toNat (lo hi : Byte) : (u16le lo hi).toNat = lo.toNat + 256 * hi.toNat := by
  have := lo.isLt
  simp only [u16le, BitVec.toNat_append]
  rw [← Nat.shiftLeft_add_eq_or_of_lt (by omega), Nat.shiftLeft_eq]
  omega

theorem s16le_toInt (lo hi : Byte) : (s16le lo hi).toInt =
    if 32768 ≤ lo.toNat + 256 * hi.toNat then (lo.toNat + 256 * hi.toNat : Int) - 65536
    else lo.toNat + 256 * hi.toNat := by
  have h : (s16le lo hi).toNat = lo.toNat + 256 * hi.toNat := u16le_toNat lo hi
  rw [BitVec.toInt_eq_toNat_cond, h]
  split <;> split <;> omega

theorem toInt_bounds (v : Sample) : -32768 ≤ v.toInt ∧ v.toInt ≤ 32767 := by
  have h1 := BitVec.le_toInt v
  have h2 := BitVec.toInt_lt (x := v)
  omega

theorem smin_toInt (a b : Sample) : (smin a b).toInt = min a.toInt b.toInt := by
  unfold smin; split <;> omega

theorem smax_toInt (a b : Sample) : (smax a b).toInt = max a.toInt b.toInt := by
  unfold smax; split <;> omega

/-- What a fold of `smin` from `acc` gives: a bound of `acc` and of every element, and one of them. -/
theorem foldl_smin_spec (l : List Sample) (acc : Sample) :
    (l.foldl smin acc).toInt ≤ acc.toInt ∧ (∀ x ∈ l, (l.foldl smin acc).toInt ≤ x.toInt) ∧
      (l.foldl smin acc = acc ∨ l.foldl smin acc ∈ l) := by
  induction l generalizing acc with
  | nil => simp
  | cons y l ih =>
    obtain ⟨h1, h2, h3⟩ := ih (smin acc y)
    have hm := smin_toInt acc y
    simp only [List.foldl_cons]
    refine ⟨by omega, ?_, ?_⟩
    · intro x hx
      rcases List.mem_cons.1 hx with rfl | hx
      · omega
      · exact h2 x hx
    · rcases h3 with h3 | h3
      · rw [h3]; unfold smin; split <;> simp
      · simp [h3]

/-- What a fold of `smax` from `acc` gives: a bound of `acc` and of every element, and one of them. -/
theorem foldl_smax_spec (l : List Sample) (acc : Sample) :
    acc.toInt ≤ (l.foldl smax acc).toInt ∧ (∀ x ∈ l, x.toInt ≤ (l.foldl smax acc).toInt) ∧
      (l.foldl smax acc = acc ∨ l.foldl smax acc ∈ l) := by
  induction l generalizing acc with
  | nil => simp
  | cons y l ih =>
    obtain ⟨h1, h2, h3⟩ := ih (smax acc y)
    have hm := smax_toInt acc y
    simp only [List.foldl_cons]
    refine ⟨by omega, ?_, ?_⟩
    · intro x hx
      rcases List.mem_cons.1 hx with rfl | hx
      · omega
      · exact h2 x hx
    · rcases h3 with h3 | h3
      · rw [h3]; unfold smax; split <;> simp
      · simp [h3]

/-- The minimum of the samples bounds each and is one of them (41_decode.md R173). -/
theorem minOf_spec (v : Vector Sample 768) :
    (∀ x ∈ v.toList, (minOf v).toInt ≤ x.toInt) ∧ minOf v ∈ v.toList := by
  obtain ⟨-, h2, h3⟩ := foldl_smin_spec v.toList 0x7FFF
  refine ⟨h2, h3.elim (fun h => ?_) id⟩
  have hne : v.toList ≠ [] := by
    intro h0; have := congrArg List.length h0; simp at this
  obtain ⟨x, hx⟩ := List.exists_mem_of_ne_nil _ hne
  have hle := h2 x hx
  rw [h] at hle
  have hb := toInt_bounds x
  have h7 : (0x7FFF : Sample).toInt = 32767 := by decide
  have : x = 0x7FFF := BitVec.eq_of_toInt_eq (by omega)
  rw [minOf, h, ← this]; exact hx

/-- The maximum of the samples bounds each and is one of them (41_decode.md R173). -/
theorem maxOf_spec (v : Vector Sample 768) :
    (∀ x ∈ v.toList, x.toInt ≤ (maxOf v).toInt) ∧ maxOf v ∈ v.toList := by
  obtain ⟨-, h2, h3⟩ := foldl_smax_spec v.toList 0x8000
  refine ⟨h2, h3.elim (fun h => ?_) id⟩
  have hne : v.toList ≠ [] := by
    intro h0; have := congrArg List.length h0; simp at this
  obtain ⟨x, hx⟩ := List.exists_mem_of_ne_nil _ hne
  have hle := h2 x hx
  rw [h] at hle
  have hb := toInt_bounds x
  have h7 : (0x8000 : Sample).toInt = -32768 := by decide
  have : x = 0x8000 := BitVec.eq_of_toInt_eq (by omega)
  rw [maxOf, h, ← this]; exact hx

end Sys2Proof.Machine
end

