-- ==== Sys2Proof/Laws/Memory.lean ====
section
/-! SUPPORT. The laws of the frame buffer: read after write, the canonical form, and what a buffer filled from address 0
upward reads as (20_memory.md R61, 10_state.md R30). -/

namespace Sys2Proof.Machine.Memory

theorem read_insert_same (a : Nat) (b : Byte) (m : Memory) : read a (insert a b m) = some b := by
  induction m with
  | nil => simp [insert, read]
  | cons c m ih =>
    obtain ⟨x, y⟩ := c
    unfold insert
    split
    · rw [read, if_neg (by omega), ih]
    · split <;> simp [read]

theorem read_insert_other {a x : Nat} (b : Byte) (h : x ≠ a) (m : Memory) : read x (insert a b m) = read x m := by
  induction m with
  | nil => simp [insert, read, h.symm]
  | cons c m ih =>
    obtain ⟨y, z⟩ := c
    unfold insert
    split
    · simp only [read, ih]
    · split
      · subst_vars; simp [read, h.symm]
      · simp [read, h.symm]

/-- All a write can do: the address exists, the byte is there, every other address reads as before. -/
theorem write_spec {a : Nat} {b : Byte} {m m' : Memory} (h : write a b m = some m') :
    a < 1544 ∧ m' = insert a b m ∧ read a m' = some b ∧ ∀ x, x ≠ a → read x m' = read x m := by
  unfold write at h
  split at h
  · cases h
    exact ⟨‹_›, rfl, read_insert_same a b m, fun x hx => read_insert_other b hx m⟩
  · cases h

theorem write_below {a : Nat} (b : Byte) (m : Memory) (h : a < 1544) : write a b m = some (insert a b m) := by
  simp [write, h]

theorem insert_mem {a : Nat} {b : Byte} {m : Memory} {c : Host.Cell} (h : c ∈ insert a b m) : c = (a, b) ∨ c ∈ m := by
  induction m with
  | nil => simpa [insert] using h
  | cons d m ih =>
    obtain ⟨x, y⟩ := d
    unfold insert at h
    split at h
    · rcases List.mem_cons.1 h with rfl | h
      · simp
      · rcases ih h with h | h <;> simp [h]
    · split at h
      · rcases List.mem_cons.1 h with h | h <;> simp [h]
      · rcases List.mem_cons.1 h with h | h
        · simp [h]
        · exact .inr h

theorem insert_rising (a : Nat) (b : Byte) (m : Memory) (h : m.Pairwise fun x y => x.1 < y.1) :
    (insert a b m).Pairwise fun x y => x.1 < y.1 := by
  induction m with
  | nil => simp [insert]
  | cons d m ih =>
    obtain ⟨x, y⟩ := d
    obtain ⟨hd, hm⟩ := List.pairwise_cons.1 h
    unfold insert
    split
    · refine List.pairwise_cons.2 ⟨fun c hc => ?_, ih hm⟩
      rcases insert_mem hc with rfl | hc
      · assumption
      · exact hd c hc
    · split
      · subst_vars; exact List.pairwise_cons.2 ⟨hd, hm⟩
      · refine List.pairwise_cons.2 ⟨fun c hc => ?_, h⟩
        rcases List.mem_cons.1 hc with rfl | hc
        · simp; omega
        · have := hd c hc; simp at this ⊢; omega

theorem wf_iff (m : Memory) : wf m = true ↔ (m.Pairwise fun x y => x.1 < y.1) ∧ ∀ c ∈ m, c.1 < 1544 := by
  simp [wf]

/-- A write keeps the canonical form. -/
theorem write_wf {a : Nat} {b : Byte} {m m' : Memory} (hm : wf m = true) (h : write a b m = some m') :
    wf m' = true := by
  obtain ⟨ha, rfl, -⟩ := write_spec h
  rw [wf_iff] at hm ⊢
  refine ⟨insert_rising a b m hm.1, fun c hc => ?_⟩
  rcases insert_mem hc with rfl | hc
  · exact ha
  · exact hm.2 c hc

theorem reset_wf : wf State.reset.fb = true := by decide

/-! ## A buffer filled from address 0 upward -/

theorem insert_at_end (n : Nat) (b : Byte) (m : Memory) (h : ∀ c ∈ m, c.1 < n) : insert n b m = m ++ [(n, b)] := by
  induction m with
  | nil => rfl
  | cons d m ih =>
    obtain ⟨x, y⟩ := d
    have hx : x < n := h (x, y) (by simp)
    rw [insert, if_pos hx, ih fun c hc => h c (by simp [hc])]
    rfl

theorem filled_lt {n : Nat} {m : Memory} (h : m.map Prod.fst = List.range n) : ∀ c ∈ m, c.1 < n := by
  intro c hc
  have : c.1 ∈ m.map Prod.fst := List.mem_map_of_mem hc
  simpa [h] using this

theorem filled_insert {n : Nat} {m : Memory} (b : Byte) (h : m.map Prod.fst = List.range n) :
    (insert n b m).map Prod.fst = List.range (n + 1) := by
  rw [insert_at_end n b m (filled_lt h), List.map_append, h, List.range_succ]; rfl

theorem read_isSome (a : Nat) (m : Memory) : (read a m).isSome = true ↔ a ∈ m.map Prod.fst := by
  induction m with
  | nil => simp [read]
  | cons d m ih =>
    obtain ⟨x, y⟩ := d
    unfold read
    split
    · subst_vars; simp
    · rw [ih]; simp; omega

/-- A byte read is a cell of the list. -/
theorem mem_of_read {a : Nat} {b : Byte} {m : Memory} (h : read a m = some b) : (a, b) ∈ m := by
  induction m with
  | nil => cases h
  | cons d m ih =>
    obtain ⟨x, y⟩ := d
    unfold read at h
    split at h
    · cases h; subst_vars; simp
    · simp [ih h]

/-- FB[a] has a value exactly below the fill count. -/
theorem filled_read {n : Nat} {m : Memory} (h : m.map Prod.fst = List.range n) (a : Nat) :
    (read a m).isSome = true ↔ a < n := by
  rw [read_isSome, h, List.mem_range]

theorem filled_wf {n : Nat} {m : Memory} (h : m.map Prod.fst = List.range n) (hn : n ≤ 1544) : wf m = true := by
  rw [wf_iff]
  refine ⟨?_, fun c hc => by have := filled_lt h c hc; omega⟩
  have hr : (m.map Prod.fst).Pairwise (· < ·) := by rw [h]; exact List.pairwise_lt_range
  exact List.pairwise_map.1 hr

end Sys2Proof.Machine.Memory
end

