-- ==== Sys2Proof/Laws/State.lean ====
section
/-! SUPPORT. What each named update of State does to each field: one lemma per field, by which no later proof unfolds a
record update. -/

namespace Sys2Proof.Machine

variable (s : State)

/-! ## respond -/

@[simp] theorem State.respond_chstate (r : OpResult) : (s.respond r).chstate = s.chstate := rfl
@[simp] theorem State.respond_fb (r : OpResult) : (s.respond r).fb = s.fb := rfl
@[simp] theorem State.respond_flen (r : OpResult) : (s.respond r).flen = s.flen := rfl
@[simp] theorem State.respond_decoded (r : OpResult) : (s.respond r).decoded = s.decoded := rfl
@[simp] theorem State.respond_grid (r : OpResult) : (s.respond r).grid = s.grid := rfl
@[simp] theorem State.respond_emis (r : OpResult) : (s.respond r).emis = s.emis := rfl
@[simp] theorem State.respond_ecause (r : OpResult) : (s.respond r).ecause = s.ecause := rfl
@[simp] theorem State.respond_einfo (r : OpResult) : (s.respond r).einfo = s.einfo := rfl
@[simp] theorem State.respond_eflags (r : OpResult) : (s.respond r).eflags = s.eflags := rfl
@[simp] theorem State.respond_rxop (r : OpResult) : (s.respond r).rxop = s.rxop := rfl
@[simp] theorem State.respond_baud (r : OpResult) : (s.respond r).baud = s.baud := rfl
@[simp] theorem State.respond_tx (r : OpResult) : (s.respond r).tx = s.tx := rfl
@[simp] theorem State.respond_rx (r : OpResult) : (s.respond r).rx = s.rx := rfl
@[simp] theorem State.respond_opens (r : OpResult) : (s.respond r).opens = s.opens := rfl
@[simp] theorem State.respond_openReqs (r : OpResult) : (s.respond r).openReqs = s.openReqs := rfl
@[simp] theorem State.respond_results (r : OpResult) : (s.respond r).results = s.results ++ [r] := rfl
@[simp] theorem State.respond_held (r : OpResult) : (s.respond r).held = s.held := rfl
@[simp] theorem State.respond_sched (r : OpResult) : (s.respond r).sched = s.sched := rfl

/-! ## raise -/

@[simp] theorem State.raise_chstate (f : EngineFault) (info : Word) : (s.raise f info).chstate = s.chstate := rfl
@[simp] theorem State.raise_fb (f : EngineFault) (info : Word) : (s.raise f info).fb = s.fb := rfl
@[simp] theorem State.raise_flen (f : EngineFault) (info : Word) : (s.raise f info).flen = s.flen := rfl
@[simp] theorem State.raise_decoded (f : EngineFault) (info : Word) : (s.raise f info).decoded = s.decoded := rfl
@[simp] theorem State.raise_grid (f : EngineFault) (info : Word) : (s.raise f info).grid = s.grid := rfl
@[simp] theorem State.raise_emis (f : EngineFault) (info : Word) : (s.raise f info).emis = s.emis := rfl
@[simp] theorem State.raise_ecause (f : EngineFault) (info : Word) : (s.raise f info).ecause = f.code := rfl
@[simp] theorem State.raise_einfo (f : EngineFault) (info : Word) : (s.raise f info).einfo = info := rfl
@[simp] theorem State.raise_eflags (f : EngineFault) (info : Word) : (s.raise f info).eflags = setEflag f s.eflags := rfl
@[simp] theorem State.raise_rxop (f : EngineFault) (info : Word) : (s.raise f info).rxop = none := rfl
@[simp] theorem State.raise_baud (f : EngineFault) (info : Word) : (s.raise f info).baud = s.baud := rfl
@[simp] theorem State.raise_tx (f : EngineFault) (info : Word) : (s.raise f info).tx = s.tx := rfl
@[simp] theorem State.raise_rx (f : EngineFault) (info : Word) : (s.raise f info).rx = s.rx := rfl
@[simp] theorem State.raise_opens (f : EngineFault) (info : Word) : (s.raise f info).opens = s.opens := rfl
@[simp] theorem State.raise_openReqs (f : EngineFault) (info : Word) : (s.raise f info).openReqs = s.openReqs := rfl
@[simp] theorem State.raise_results (f : EngineFault) (info : Word) : (s.raise f info).results = s.results ++ [⟨f.code, info⟩] := rfl
@[simp] theorem State.raise_held (f : EngineFault) (info : Word) : (s.raise f info).held = s.held := rfl
@[simp] theorem State.raise_sched (f : EngineFault) (info : Word) : (s.raise f info).sched = s.sched := rfl

/-! ## sendPacket -/

@[simp] theorem State.sendPacket_chstate (wop wpl : Byte) : (s.sendPacket wop wpl).chstate = s.chstate := rfl
@[simp] theorem State.sendPacket_fb (wop wpl : Byte) : (s.sendPacket wop wpl).fb = s.fb := rfl
@[simp] theorem State.sendPacket_flen (wop wpl : Byte) : (s.sendPacket wop wpl).flen = s.flen := rfl
@[simp] theorem State.sendPacket_decoded (wop wpl : Byte) : (s.sendPacket wop wpl).decoded = s.decoded := rfl
@[simp] theorem State.sendPacket_grid (wop wpl : Byte) : (s.sendPacket wop wpl).grid = s.grid := rfl
@[simp] theorem State.sendPacket_emis (wop wpl : Byte) : (s.sendPacket wop wpl).emis = s.emis := rfl
@[simp] theorem State.sendPacket_ecause (wop wpl : Byte) : (s.sendPacket wop wpl).ecause = s.ecause := rfl
@[simp] theorem State.sendPacket_einfo (wop wpl : Byte) : (s.sendPacket wop wpl).einfo = s.einfo := rfl
@[simp] theorem State.sendPacket_eflags (wop wpl : Byte) : (s.sendPacket wop wpl).eflags = s.eflags := rfl
@[simp] theorem State.sendPacket_rxop (wop wpl : Byte) : (s.sendPacket wop wpl).rxop = s.rxop := rfl
@[simp] theorem State.sendPacket_baud (wop wpl : Byte) : (s.sendPacket wop wpl).baud = s.baud := rfl
@[simp] theorem State.sendPacket_tx (wop wpl : Byte) : (s.sendPacket wop wpl).tx = s.tx ++ pack wop wpl := rfl
@[simp] theorem State.sendPacket_rx (wop wpl : Byte) : (s.sendPacket wop wpl).rx = s.rx := rfl
@[simp] theorem State.sendPacket_opens (wop wpl : Byte) : (s.sendPacket wop wpl).opens = s.opens := rfl
@[simp] theorem State.sendPacket_openReqs (wop wpl : Byte) : (s.sendPacket wop wpl).openReqs = s.openReqs := rfl
@[simp] theorem State.sendPacket_results (wop wpl : Byte) : (s.sendPacket wop wpl).results = s.results := rfl
@[simp] theorem State.sendPacket_held (wop wpl : Byte) : (s.sendPacket wop wpl).held = s.held := rfl
@[simp] theorem State.sendPacket_sched (wop wpl : Byte) : (s.sendPacket wop wpl).sched = s.sched := rfl

/-! ## restart -/

@[simp] theorem State.restart_chstate : (s.restart).chstate = .closed := rfl
@[simp] theorem State.restart_fb : (s.restart).fb = [] := rfl
@[simp] theorem State.restart_flen : (s.restart).flen = 0 := rfl
@[simp] theorem State.restart_decoded : (s.restart).decoded = none := rfl
@[simp] theorem State.restart_grid : (s.restart).grid = none := rfl
@[simp] theorem State.restart_emis : (s.restart).emis = none := rfl
@[simp] theorem State.restart_ecause : (s.restart).ecause = 0 := rfl
@[simp] theorem State.restart_einfo : (s.restart).einfo = 0 := rfl
@[simp] theorem State.restart_eflags : (s.restart).eflags = 0 := rfl
@[simp] theorem State.restart_rxop : (s.restart).rxop = none := rfl
@[simp] theorem State.restart_baud : (s.restart).baud = s.baud := rfl
@[simp] theorem State.restart_tx : (s.restart).tx = s.tx := rfl
@[simp] theorem State.restart_rx : (s.restart).rx = s.rx := rfl
@[simp] theorem State.restart_opens : (s.restart).opens = s.opens := rfl
@[simp] theorem State.restart_openReqs : (s.restart).openReqs = s.openReqs := rfl
@[simp] theorem State.restart_results : (s.restart).results = s.results := rfl
@[simp] theorem State.restart_held : (s.restart).held = none := rfl
@[simp] theorem State.restart_sched : (s.restart).sched = s.sched := rfl

/-! ## sendIfOpen -/

@[simp] theorem State.sendIfOpen_chstate (wop wpl : Byte) : (s.sendIfOpen wop wpl).chstate = s.chstate := by
  unfold State.sendIfOpen; split <;> rfl
@[simp] theorem State.sendIfOpen_fb (wop wpl : Byte) : (s.sendIfOpen wop wpl).fb = s.fb := by
  unfold State.sendIfOpen; split <;> rfl
@[simp] theorem State.sendIfOpen_flen (wop wpl : Byte) : (s.sendIfOpen wop wpl).flen = s.flen := by
  unfold State.sendIfOpen; split <;> rfl
@[simp] theorem State.sendIfOpen_decoded (wop wpl : Byte) : (s.sendIfOpen wop wpl).decoded = s.decoded := by
  unfold State.sendIfOpen; split <;> rfl
@[simp] theorem State.sendIfOpen_grid (wop wpl : Byte) : (s.sendIfOpen wop wpl).grid = s.grid := by
  unfold State.sendIfOpen; split <;> rfl
@[simp] theorem State.sendIfOpen_emis (wop wpl : Byte) : (s.sendIfOpen wop wpl).emis = s.emis := by
  unfold State.sendIfOpen; split <;> rfl
@[simp] theorem State.sendIfOpen_ecause (wop wpl : Byte) : (s.sendIfOpen wop wpl).ecause = s.ecause := by
  unfold State.sendIfOpen; split <;> rfl
@[simp] theorem State.sendIfOpen_einfo (wop wpl : Byte) : (s.sendIfOpen wop wpl).einfo = s.einfo := by
  unfold State.sendIfOpen; split <;> rfl
@[simp] theorem State.sendIfOpen_eflags (wop wpl : Byte) : (s.sendIfOpen wop wpl).eflags = s.eflags := by
  unfold State.sendIfOpen; split <;> rfl
@[simp] theorem State.sendIfOpen_rxop (wop wpl : Byte) : (s.sendIfOpen wop wpl).rxop = s.rxop := by
  unfold State.sendIfOpen; split <;> rfl
@[simp] theorem State.sendIfOpen_baud (wop wpl : Byte) : (s.sendIfOpen wop wpl).baud = s.baud := by
  unfold State.sendIfOpen; split <;> rfl
theorem State.sendIfOpen_tx (wop wpl : Byte) :
    (s.sendIfOpen wop wpl).tx = if s.chstate = .closed then s.tx else s.tx ++ pack wop wpl := by
  unfold State.sendIfOpen; split <;> rfl
@[simp] theorem State.sendIfOpen_rx (wop wpl : Byte) : (s.sendIfOpen wop wpl).rx = s.rx := by
  unfold State.sendIfOpen; split <;> rfl
@[simp] theorem State.sendIfOpen_opens (wop wpl : Byte) : (s.sendIfOpen wop wpl).opens = s.opens := by
  unfold State.sendIfOpen; split <;> rfl
@[simp] theorem State.sendIfOpen_openReqs (wop wpl : Byte) : (s.sendIfOpen wop wpl).openReqs = s.openReqs := by
  unfold State.sendIfOpen; split <;> rfl
@[simp] theorem State.sendIfOpen_results (wop wpl : Byte) : (s.sendIfOpen wop wpl).results = s.results := by
  unfold State.sendIfOpen; split <;> rfl
@[simp] theorem State.sendIfOpen_held (wop wpl : Byte) : (s.sendIfOpen wop wpl).held = s.held := by
  unfold State.sendIfOpen; split <;> rfl
@[simp] theorem State.sendIfOpen_sched (wop wpl : Byte) : (s.sendIfOpen wop wpl).sched = s.sched := by
  unfold State.sendIfOpen; split <;> rfl

/-! ## abort -/

theorem State.abort_idle (h : s.rxop = none) : s.abort = s := by simp [State.abort, h]

theorem State.abort_waiting {r : Receive} (h : s.rxop = some r) : s.abort = s.raise .aborted (zext32 s.flen) := by
  simp [State.abort, h]

/-! ## askOpen -/

theorem State.askOpen_answer : s.askOpen.1 = s.opens.headD .unavailable := rfl

theorem State.askOpen_state : s.askOpen.2 =
    { s with openReqs := s.openReqs ++ [⟨Config.devicePath, s.baud⟩], opens := s.opens.tail } := rfl

end Sys2Proof.Machine
end

