-- ==== Sys2Proof/Laws/Ops.lean ====
section
/-! SUPPORT. What each shared operation can do, said once: if it answers a next state, that state is one of these. -/

namespace Sys2Proof.Machine

theorem finish_next {v : Word} {s t : State} : finish v s = .next t ↔ s.respond ⟨0, v⟩ = t := by
  simp [finish]

theorem fail_next {f : EngineFault} {info : Word} {s t : State} : fail f info s = .next t ↔ s.raise f info = t := by
  simp [fail]

/-- The channel condition: the body runs on an open channel, and NotOpen or ShortRead(0) is raised on the others. -/
theorem ifOpened_next {w : Word} {s t : State} {body : Out} (h : ifOpened w s body = .next t) :
    (s.chstate = .closed ∧ t = s.raise .notOpen w) ∨ (s.chstate = .failed ∧ t = s.raise .shortRead 0) ∨
      (s.chstate = .opened ∧ body = .next t) := by
  unfold ifOpened at h
  split at h
  · exact .inl ⟨‹_›, (fail_next.1 h).symm⟩
  · exact .inr (.inl ⟨‹_›, (fail_next.1 h).symm⟩)
  · exact .inr (.inr ⟨‹_›, h⟩)

/-- Completion: the plain one hands over FLEN, the one of GETEMIS latches FB[2]. -/
theorem completeReceive_next {k : RxKind} {s t : State} (h : completeReceive k s = .next t) :
    (k = .plain ∧ t = State.respond ⟨0, zext32 s.flen⟩ { s with rxop := none }) ∨
      (k = .emis ∧ ∃ b, Memory.read 2 s.fb = some b ∧
        t = State.respond ⟨0, zext32 b⟩ { s with rxop := none, emis := some b }) := by
  cases k with
  | plain => exact .inl ⟨rfl, (finish_next.1 h).symm⟩
  | emis =>
    simp only [completeReceive] at h
    split at h
    · exact .inr ⟨rfl, _, ‹_›, (finish_next.1 h).symm⟩
    · cases h

/-- The start of a receive: FB emptied, and completion at once or a wait. -/
theorem startReceive_next {n : Count} {k : RxKind} {s t : State} (h : startReceive n k s = .next t) :
    (n = 0 ∧ completeReceive k { s with fb := [], flen := 0 } = .next t) ∨
      (n ≠ 0 ∧ t = { s with fb := [], flen := 0, rxop := some ⟨n, k⟩ }) := by
  unfold startReceive at h
  split at h
  · exact .inl ⟨‹_›, h⟩
  · cases h; exact .inr ⟨‹_›, rfl⟩

/-- A byte received: stored at FLEN, counted, and the receive goes on or completes. -/
theorem storeByte_next {r : Receive} {b : Byte} {s t : State} (h : storeByte r b s = .next t) :
    s.flen.toNat < 1544 ∧
      ((s.flen + 1 = r.target ∧ completeReceive r.kind
          { s with fb := Memory.insert s.flen.toNat b s.fb, flen := s.flen + 1 } = .next t) ∨
        (s.flen + 1 ≠ r.target ∧ t = { s with fb := Memory.insert s.flen.toNat b s.fb, flen := s.flen + 1 })) := by
  unfold storeByte at h
  split at h
  · cases h
  · rename_i m hm
    obtain ⟨ha, rfl, -⟩ := Memory.write_spec hm
    refine ⟨ha, ?_⟩
    simp only at h
    split at h
    · exact .inl ⟨‹_›, h⟩
    · cases h; exact .inr ⟨‹_›, rfl⟩

/-- A receive in progress: it waits, stores a byte, or fails the channel. -/
theorem takeItem_next {r : Receive} {s t : State} (h : takeItem r s = .next t) :
    (s.rx = [] ∧ t = s) ∨
      (∃ b rest, s.rx = .byte b :: rest ∧ storeByte r b { s with rx := rest } = .next t) ∨
      (∃ rest, s.rx = .err :: rest ∧
        t = State.raise .shortRead (zext32 s.flen) { s with rx := rest, chstate := .failed }) := by
  unfold takeItem at h
  split at h
  · cases h; exact .inl ⟨‹_›, rfl⟩
  · exact .inr (.inl ⟨_, _, ‹_›, h⟩)
  · exact .inr (.inr ⟨_, ‹_›, (fail_next.1 h).symm⟩)

/-- The engine's own transition: none when idle. -/
theorem engineMove_next {s t : State} (h : engineMove s = .next t) :
    (s.rxop = none ∧ t = s) ∨ ∃ r, s.rxop = some r ∧ takeItem r s = .next t := by
  unfold engineMove at h
  split at h
  · cases h; exact .inl ⟨‹_›, rfl⟩
  · exact .inr ⟨_, ‹_›, h⟩

@[simp] theorem Fetched.outcome_runs (i : Instr) (s : State) : (Fetched.runs i s).outcome = exec i s := rfl
@[simp] theorem Fetched.outcome_moved (o : Out) : (Fetched.moved o).outcome = o := rfl

/-- The engine by itself: a receive or nothing, or, idle, the packet it holds emitted, or what is no packet dropped. -/
theorem engineTurn_next {s t : State} (h : (engineTurn s).outcome = .next t) :
    engineMove s = .next t ∨
    (∃ w i, s.rxop = none ∧ s.held = some w ∧ decodeWire w = .ok i ∧ exec i { s with held := none } = .next t) ∨
    (∃ w e, s.rxop = none ∧ s.held = some w ∧ decodeWire w = .error e ∧ t = { s with held := none }) := by
  unfold engineTurn at h
  split at h
  · rename_i w hr hh
    unfold emitHeld at h
    split at h
    · exact .inr (.inl ⟨w, _, hr, hh, ‹_›, h⟩)
    · cases h; exact .inr (.inr ⟨w, _, hr, hh, ‹_›, rfl⟩)
  · exact .inl h
  · exact .inl h

/-- An engine that holds no packet makes its own transition. -/
theorem engineTurn_empty {s : State} (h : s.held = none) : engineTurn s = .moved (engineMove s) := by
  unfold engineTurn; cases s.rxop <;> simp [h]

/-- A receive in progress goes on, whatever is held. -/
theorem engineTurn_waiting {s : State} {r : Receive} (h : s.rxop = some r) : engineTurn s = .moved (engineMove s) := by
  simp [engineTurn, h]

/-- All a step can do: the engine by itself, an arrival, an abort, a reset, a word that a waiting engine leaves at the port
while its receive goes on, an instruction accepted at the port, or an illegal word. -/
theorem step_next {s t : State} (h : step s = .next t) :
    (s.sched = [] ∧ (engineTurn s).outcome = .next t) ∨
    (∃ rest, s.sched = .run :: rest ∧ (engineTurn { s with sched := rest }).outcome = .next t) ∨
    (∃ it rest, s.sched = .arrive it :: rest ∧ t = { s with sched := rest, rx := s.rx ++ [it] }) ∨
    (∃ rest, s.sched = .abort :: rest ∧ t = State.abort { s with sched := rest }) ∨
    (∃ rest, s.sched = .reset :: rest ∧ t = State.restart { s with sched := rest }) ∨
    (∃ w rest, s.sched = .word w :: rest ∧ s.waiting = true ∧ engineMove s = .next t) ∨
    (∃ w i rest, s.sched = .word w :: rest ∧ s.waiting = false ∧ decodeHost w = .ok i ∧
      exec i { s with sched := rest } = .next t) ∨
    (∃ w e rest, s.sched = .word w :: rest ∧ s.waiting = false ∧ decodeHost w = .error e ∧
      t = State.raise .illegalOp w { s with sched := rest }) := by
  unfold step fetch at h
  rcases hs : s.sched with _ | ⟨mv, rest⟩
  · simp only [hs] at h; exact .inl ⟨rfl, h⟩
  refine .inr ?_
  cases mv with
  | run => simp only [hs] at h; exact .inl ⟨rest, rfl, h⟩
  | arrive it => simp only [hs] at h; cases h; exact .inr (.inl ⟨it, rest, rfl, rfl⟩)
  | abort => simp only [hs] at h; cases h; exact .inr (.inr (.inl ⟨rest, rfl, rfl⟩))
  | reset => simp only [hs] at h; cases h; exact .inr (.inr (.inr (.inl ⟨rest, rfl, rfl⟩)))
  | word w =>
    refine .inr (.inr (.inr (.inr ?_)))
    simp only [hs, acceptWord] at h
    cases hw : s.waiting with
    | true => simp only [hw, if_true] at h; exact .inl ⟨w, rest, rfl, rfl, h⟩
    | false =>
      simp only [hw, Bool.false_eq_true, if_false] at h
      cases hd : decodeHost w with
      | ok i => simp only [hd] at h; exact .inr (.inl ⟨w, i, rest, rfl, rfl, hd, h⟩)
      | error e => simp only [hd] at h; exact .inr (.inr ⟨w, e, rest, rfl, rfl, hd, (fail_next.1 h).symm⟩)

end Sys2Proof.Machine
end

