-- ==== Sys2Proof/Laws/Instr.lean ====
section
/-! SUPPORT. What each meaning can do when it answers a next state: one lemma per instruction, cited instead of unfolding
the meaning. -/

namespace Sys2Proof.Machine

/-- OPEN: already in use, refused by the environment, or opened on the stream offered. -/
theorem execOpen_next {s t : State} (h : execOpen s = .next t) :
    (s.chstate ≠ .closed ∧ t = s.raise .channelUnavailable (zext32 s.chstate.code)) ∨
    (s.chstate = .closed ∧ t = s.askOpen.2.raise .channelUnavailable 0) ∨
    (s.chstate = .closed ∧ ∃ offered, s.opens.head? = some (.available offered) ∧
      t = State.respond ⟨0, 0⟩ { s.askOpen.2 with chstate := .opened, rx := offered }) := by
  unfold execOpen at h
  split at h
  · exact .inl ⟨‹_›, (fail_next.1 h).symm⟩
  · have hc : s.chstate = .closed := Classical.not_not.1 ‹_›
    refine .inr ?_
    split at h
    · rename_i s' hs
      have : s' = s.askOpen.2 := by rw [hs]
      subst this
      exact .inl ⟨hc, (fail_next.1 h).symm⟩
    · rename_i offered s' hs
      have h2 : s' = s.askOpen.2 := by rw [hs]
      have h1 : s.opens.headD .unavailable = .available offered := by rw [← State.askOpen_answer, hs]
      subst h2
      refine .inr ⟨hc, offered, ?_, (finish_next.1 h).symm⟩
      cases ho : s.opens with
      | nil => simp [ho] at h1
      | cons a l => simpa [ho] using h1

theorem execSend_next {wop wpl : Byte} {s t : State} (h : execSend wop wpl s = .next t) :
    (s.chstate = .closed ∧ t = s.raise .notOpen (encode (.send wop wpl))) ∨
      (s.chstate ≠ .closed ∧ t = (s.sendPacket wop wpl).respond ⟨0, 0⟩) := by
  unfold execSend at h
  split at h
  · exact .inl ⟨‹_›, (fail_next.1 h).symm⟩
  · exact .inr ⟨‹_›, (finish_next.1 h).symm⟩

/-- DECODE: the length is wrong, or the fields of the buffer become the decoded frame. -/
theorem execDecode_next {s t : State} (h : execDecode s = .next t) :
    (s.flen ≠ 1544 ∧ t = State.raise .malformedFrame (zext32 s.flen) { s with decoded := none, grid := none }) ∨
      (s.flen = 1544 ∧ ∃ amb v, s.fb.ambient = some amb ∧ s.fb.samples = some v ∧
        t = State.respond ⟨0, 0⟩ { s with decoded := some (decodedFrame amb v), grid := none }) := by
  unfold execDecode at h
  split at h
  · exact .inl ⟨‹_›, (fail_next.1 h).symm⟩
  · refine .inr ⟨Classical.not_not.1 ‹_›, ?_⟩
    unfold Memory.decodeFrame at h
    cases ha : s.fb.ambient with
    | none => simp [ha] at h
    | some amb =>
      cases hv : s.fb.samples with
      | none => simp [ha, hv] at h
      | some v => simp only [ha, hv] at h; exact ⟨amb, v, rfl, rfl, (finish_next.1 h).symm⟩

/-- The grid in degrees, element by element (41_decode.md R178). -/
@[simp] theorem Decoded.inDegrees_temperature (d : Decoded) (r : Fin 24) (c : Fin 32) :
    d.inDegrees.temperatures[r][c] = deg d.samples[cellIndex r c].toInt := by
  simp [Decoded.inDegrees]

/-- The view in degrees after a DECODE that completes: that of the buffer's fields (R178). -/
theorem execDecode_inDegrees {s t : State} (hf : s.flen = 1544) (h : execDecode s = .next t) :
    ∃ amb v, s.fb.ambient = some amb ∧ s.fb.samples = some v ∧
      t.frameInDegrees = some (decodedFrame amb v).inDegrees := by
  rcases execDecode_next h with ⟨hn, -⟩ | ⟨-, amb, v, ha, hv, rfl⟩
  · exact absurd hf hn
  · exact ⟨amb, v, ha, hv, rfl⟩

/-- The fields of a full buffer are there. -/
theorem Memory.fields_isSome {m : Memory} (h : ∀ a, a < 1544 → (Memory.read a m).isSome = true) :
    m.ambient.isSome = true ∧ m.samples.isSome = true := by
  have g : ∀ a, a < 1544 → ∃ b, Memory.read a m = some b := fun a ha => Option.isSome_iff_exists.1 (h a ha)
  constructor
  · obtain ⟨lo, hlo⟩ := g 1540 (by omega)
    obtain ⟨hi, hhi⟩ := g 1541 (by omega)
    simp [Memory.ambient, hlo, hhi]
  · refine collect_isSome fun i hi => ?_
    obtain ⟨lo, hlo⟩ := g (4 + 2 * i) (by omega)
    obtain ⟨hi, hhi⟩ := g (5 + 2 * i) (by omega)
    simp [Memory.sampleAt, hlo, hhi]

theorem execSetlo_next {lo : Sample} {s t : State} (h : execSetlo lo s = .next t) :
    (s.decoded = none ∧ t = s.raise .noValidData (encode (.setlo lo))) ∨
      ∃ d, s.decoded = some d ∧ t = State.respond ⟨0, 0⟩ { s with decoded := some { d with rlo := lo } } := by
  unfold execSetlo at h
  split at h
  · exact .inl ⟨‹_›, (fail_next.1 h).symm⟩
  · exact .inr ⟨_, ‹_›, (finish_next.1 h).symm⟩

theorem execSethi_next {hi : Sample} {s t : State} (h : execSethi hi s = .next t) :
    (s.decoded = none ∧ t = s.raise .noValidData (encode (.sethi hi))) ∨
      ∃ d, s.decoded = some d ∧ t = State.respond ⟨0, 0⟩ { s with decoded := some { d with rhi := hi } } := by
  unfold execSethi at h
  split at h
  · exact .inl ⟨‹_›, (fail_next.1 h).symm⟩
  · exact .inr ⟨_, ‹_›, (finish_next.1 h).symm⟩

theorem execNorm_next {s t : State} (h : execNorm s = .next t) :
    (s.decoded = none ∧ t = s.raise .noValidData (encode .norm)) ∨
      ∃ d, s.decoded = some d ∧ t = State.respond ⟨0, 0⟩
        { s with grid := some (lanes (fun v => quantise v d.rlo d.rhi) d.samples) } := by
  unfold execNorm at h
  split at h
  · exact .inl ⟨‹_›, (fail_next.1 h).symm⟩
  · exact .inr ⟨_, ‹_›, (finish_next.1 h).symm⟩

theorem execRead_next {n : Half} {s t : State} (h : execRead n s = .next t) :
    (¬ n ≤ 1544 ∧ t = s.raise .illegalOp (encode (.read n))) ∨
      (n ≤ 1544 ∧ ifOpened (encode (.read n)) s (startReceive (countOf n) .plain s) = .next t) := by
  unfold execRead at h
  split at h
  · exact .inr ⟨‹_›, h⟩
  · exact .inl ⟨‹_›, (fail_next.1 h).symm⟩

/-- A readout hands over a value or raises NoValidData. -/
theorem readout_next {w : Word} {v : Option Word} {s t : State} (h : readout w v s = .next t) :
    (∃ x, v = some x ∧ t = s.respond ⟨0, x⟩) ∨ (v = none ∧ t = s.raise .noValidData w) := by
  unfold readout at h
  split at h
  · exact .inl ⟨_, rfl, (finish_next.1 h).symm⟩
  · exact .inr ⟨rfl, (fail_next.1 h).symm⟩

/-- Every readout instruction hands over a value, or raises NoValidData or IllegalOp with its word. -/
theorem readout_cases {i : Instr} {s t : State}
    (hi : (∃ r, i = .rdreg r) ∨ (∃ a, i = .rdfb a) ∨ (∃ k, i = .rds k) ∨ ∃ k, i = .rdg k) (h : exec i s = .next t) :
    (∃ x, t = s.respond ⟨0, x⟩) ∨ t = s.raise .noValidData (encode i) ∨ t = s.raise .illegalOp (encode i) := by
  have key : ∀ {w v}, readout w v s = .next t →
      (∃ x, t = s.respond ⟨0, x⟩) ∨ t = s.raise .noValidData w ∨ t = s.raise .illegalOp w := fun hr => by
    rcases readout_next hr with ⟨x, -, rfl⟩ | ⟨-, rfl⟩
    · exact .inl ⟨x, rfl⟩
    · exact .inr (.inl rfl)
  rcases hi with ⟨r, rfl⟩ | ⟨a, rfl⟩ | ⟨k, rfl⟩ | ⟨k, rfl⟩
  · simp only [exec, execRdreg] at h
    split at h
    · exact key h
    · exact .inr (.inr (fail_next.1 h).symm)
  · simp only [exec, execRdfb] at h
    split at h
    · exact key h
    · exact .inr (.inr (fail_next.1 h).symm)
  · simp only [exec, execRds] at h
    split at h
    · exact key h
    · exact .inr (.inr (fail_next.1 h).symm)
  · simp only [exec, execRdg] at h
    split at h
    · exact key h
    · exact .inr (.inr (fail_next.1 h).symm)

end Sys2Proof.Machine
end

