-- ==== Sys2Proof/Laws/PerInstr.lean ====
section
/-! SUPPORT. The fields of an assembled word, and the fields of every instruction's word, one lemma per constructor
(LAWS.json: the family Fields; 30_encoding.md R91 to R93, R98). -/

namespace Sys2Proof.Laws

theorem opField_toNat (w : Word) : (opField w).toNat = w.toNat / 2 ^ 24 := by
  have := w.isLt
  simp [opField, Nat.shiftRight_eq_div_pow]; omega

theorem aField_toNat (w : Word) : (aField w).toNat = w.toNat / 2 ^ 16 % 256 := by
  simp [aField, Nat.shiftRight_eq_div_pow]

theorem bField_toNat (w : Word) : (bField w).toNat = w.toNat / 2 ^ 8 % 256 := by
  simp [bField, Nat.shiftRight_eq_div_pow]

theorem cField_toNat (w : Word) : (cField w).toNat = w.toNat % 256 := by
  simp [cField]

/-- IMM is 256 * B + C (30_encoding.md R91). -/
theorem immField_toNat (w : Word) : (immField w).toNat = 256 * (bField w).toNat + (cField w).toNat := by
  rw [bField_toNat, cField_toNat]
  simp [immField]; omega

theorem assemble_toNat (op a b c : Byte) :
    (assemble op a b c).toNat = op.toNat * 2 ^ 24 + a.toNat * 2 ^ 16 + b.toNat * 2 ^ 8 + c.toNat := by
  have := op.isLt; have := a.isLt; have := b.isLt; have := c.isLt
  simp only [assemble, BitVec.toNat_ofNat]; omega

theorem assembleImm_toNat (op : Byte) (imm : Half) :
    (assembleImm op imm).toNat = op.toNat * 2 ^ 24 + imm.toNat := by
  have := op.isLt; have := imm.isLt
  simp only [assembleImm, BitVec.toNat_ofNat]; omega

section

variable (op a b c : Byte) (imm : Half)

@[simp] theorem opField_assemble : opField (assemble op a b c) = op := by
  have := a.isLt; have := b.isLt; have := c.isLt
  apply BitVec.eq_of_toNat_eq; rw [opField_toNat, assemble_toNat]; omega

@[simp] theorem aField_assemble : aField (assemble op a b c) = a := by
  have := a.isLt; have := b.isLt; have := c.isLt
  apply BitVec.eq_of_toNat_eq; rw [aField_toNat, assemble_toNat]; omega

@[simp] theorem bField_assemble : bField (assemble op a b c) = b := by
  have := b.isLt; have := c.isLt
  apply BitVec.eq_of_toNat_eq; rw [bField_toNat, assemble_toNat]; omega

@[simp] theorem cField_assemble : cField (assemble op a b c) = c := by
  have := c.isLt
  apply BitVec.eq_of_toNat_eq; rw [cField_toNat, assemble_toNat]; omega

@[simp] theorem opField_assembleImm : opField (assembleImm op imm) = op := by
  have := imm.isLt
  apply BitVec.eq_of_toNat_eq; rw [opField_toNat, assembleImm_toNat]; omega

@[simp] theorem aField_assembleImm : aField (assembleImm op imm) = 0 := by
  have := imm.isLt
  apply BitVec.eq_of_toNat_eq; rw [aField_toNat, assembleImm_toNat]; simp; omega

@[simp] theorem immField_assembleImm : immField (assembleImm op imm) = imm := by
  have := imm.isLt
  apply BitVec.eq_of_toNat_eq
  rw [immField_toNat, bField_toNat, cField_toNat, assembleImm_toNat]; omega

end

/-- A word is the one assembled from its four fields. -/
theorem assemble_fields (w : Word) : assemble (opField w) (aField w) (bField w) (cField w) = w := by
  apply BitVec.eq_of_toNat_eq
  rw [assemble_toNat, opField_toNat, aField_toNat, bField_toNat, cField_toNat]; omega

/-- A word with a zero A field is the one assembled from its OP field and its immediate. -/
theorem assembleImm_fields (w : Word) (h : aField w = 0) : assembleImm (opField w) (immField w) = w := by
  have ha := congrArg BitVec.toNat h
  rw [aField_toNat] at ha
  apply BitVec.eq_of_toNat_eq
  rw [assembleImm_toNat, opField_toNat, immField_toNat, bField_toNat, cField_toNat]
  simp at ha; omega

/-- The four byte fields an instruction's word holds: OP, A, B, C, or the bytes of a packet in the order they are sent. -/
def fieldsOf : Instr → Byte × Byte × Byte × Byte
  | .openCh => (0x01, 0, 0, 0)
  | .close => (0x02, 0, 0, 0)
  | .send wop wpl => (0x03, wop, wpl, 0)
  | .query wop wpl len => (0x04, wop, wpl, len)
  | .read n => (0x05, 0, n.extractLsb' 8 8, n.extractLsb' 0 8)
  | .decode => (0x06, 0, 0, 0)
  | .norm => (0x07, 0, 0, 0)
  | .setlo lo => (0x08, 0, lo.extractLsb' 8 8, lo.extractLsb' 0 8)
  | .sethi hi => (0x09, 0, hi.extractLsb' 8 8, hi.extractLsb' 0 8)
  | .getemis => (0x0A, 0, 0, 0)
  | .shutdown => (0x0B, 0, 0, 0)
  | .rdreg r => (0x0C, r, 0, 0)
  | .rdfb a => (0x0D, 0, a.extractLsb' 8 8, a.extractLsb' 0 8)
  | .rds i => (0x0E, 0, i.extractLsb' 8 8, i.extractLsb' 0 8)
  | .rdg i => (0x0F, 0, i.extractLsb' 8 8, i.extractLsb' 0 8)
  | .wQemis => (0xA5, 0x55, 0x01, 0xFB)
  | .wSetfps8 => (0xA5, 0x25, 0x04, 0xCE)
  | .wStart => (0xA5, 0x35, 0x02, 0xDC)
  | .wStop => (0xA5, 0x35, 0x01, 0xDB)
  | .wCmd wop wpl => (0xA5, wop, wpl, 0xA5 + wop + wpl)

namespace Fields

/-- The word of the instruction holds the fields of its shape. -/
def Statement (i : Instr) : Prop :=
  (opField (encode i), aField (encode i), bField (encode i), cField (encode i)) = fieldsOf i

theorem immediate (op : Byte) (imm : Half) :
    (opField (assembleImm op imm), aField (assembleImm op imm), bField (assembleImm op imm),
      cField (assembleImm op imm)) = (op, 0, imm.extractLsb' 8 8, imm.extractLsb' 0 8) := by
  have := imm.isLt
  have hb : bField (assembleImm op imm) = imm.extractLsb' 8 8 := by
    apply BitVec.eq_of_toNat_eq
    rw [bField_toNat, assembleImm_toNat]; simp [Nat.shiftRight_eq_div_pow]; omega
  have hc : cField (assembleImm op imm) = imm.extractLsb' 0 8 := by
    apply BitVec.eq_of_toNat_eq
    rw [cField_toNat, assembleImm_toNat]; simp; omega
  simp [hb, hc]

theorem openCh : Statement .openCh := by unfold Statement; decide
theorem close : Statement .close := by unfold Statement; decide
theorem send (wop wpl : Byte) : Statement (.send wop wpl) := by simp [Statement, encode, fieldsOf]
theorem query (wop wpl len : Byte) : Statement (.query wop wpl len) := by simp [Statement, encode, fieldsOf]
theorem read (n : Half) : Statement (.read n) := immediate _ n
theorem decode : Statement .decode := by unfold Statement; decide
theorem norm : Statement .norm := by unfold Statement; decide
theorem setlo (lo : Sample) : Statement (.setlo lo) := immediate _ lo
theorem sethi (hi : Sample) : Statement (.sethi hi) := immediate _ hi
theorem getemis : Statement .getemis := by unfold Statement; decide
theorem shutdown : Statement .shutdown := by unfold Statement; decide
theorem rdreg (r : Byte) : Statement (.rdreg r) := by simp [Statement, encode, fieldsOf]
theorem rdfb (a : Half) : Statement (.rdfb a) := immediate _ a
theorem rds (i : Half) : Statement (.rds i) := immediate _ i
theorem rdg (i : Half) : Statement (.rdg i) := immediate _ i
theorem wQemis : Statement .wQemis := by unfold Statement; decide
theorem wSetfps8 : Statement .wSetfps8 := by unfold Statement; decide
theorem wStart : Statement .wStart := by unfold Statement; decide
theorem wStop : Statement .wStop := by unfold Statement; decide
theorem wCmd (wop wpl : Byte) : Statement (.wCmd wop wpl) := by simp [Statement, encode, fieldsOf, packetWord, cks]

end Fields

end Sys2Proof.Laws
end

