-- ==== Sys2Proof/Tests/Slice0.lean ====
section
/-! SUPPORT. Tests, expected values from the spec (30_encoding.md R99, R111; 95_test_vectors.md), and for every
obligation with hypotheses a state and operands that meet them (`witness_…`). -/

namespace Sys2Proof.Tests

open Sys2Proof Sys2Proof.Machine

/-! ## Well-formedness: an ill-formed term for each check -/

theorem smoke_read : (Instr.read 1545).wellFormed = false ∧ (Instr.read 1544).wellFormed = true := by decide
theorem smoke_rdreg : (Instr.rdreg 12).wellFormed = false ∧ (Instr.rdreg 11).wellFormed = true := by decide
theorem smoke_rdfb : (Instr.rdfb 1544).wellFormed = false ∧ (Instr.rdfb 1543).wellFormed = true := by decide
theorem smoke_rds : (Instr.rds 768).wellFormed = false ∧ (Instr.rds 767).wellFormed = true := by decide
theorem smoke_rdg : (Instr.rdg 768).wellFormed = false ∧ (Instr.rdg 767).wellFormed = true := by decide
theorem smoke_wCmd : (Instr.wCmd 0x55 0x01).wellFormed = false ∧ (Instr.wCmd 0x25 0x04).wellFormed = false ∧
    (Instr.wCmd 0x35 0x02).wellFormed = false ∧ (Instr.wCmd 0x35 0x01).wellFormed = false ∧
    (Instr.wCmd 0x25 0x07).wellFormed = true := by decide

/-! ## Decoding: words written out from R111, R99 and 95_test_vectors.md 2.1, 2.8 -/

theorem test_decode_open : decodeHost 0b00000001000000000000000000000000 = .ok .openCh := by decide
theorem test_decode_close : decodeHost 0b00000010000000000000000000000000 = .ok .close := by decide
theorem test_decode_send : decodeHost 0b00000011001001010000010000000000 = .ok (.send 0x25 0x04) := by decide
theorem test_decode_query : decodeHost 0b00000100010101010000000100000100 = .ok (.query 0x55 0x01 4) := by decide
theorem test_decode_read : decodeHost 0b00000101000000000000011000001000 = .ok (.read 1544) := by decide
theorem test_decode_decode : decodeHost 0b00000110000000000000000000000000 = .ok .decode := by decide
theorem test_decode_norm : decodeHost 0b00000111000000000000000000000000 = .ok .norm := by decide
theorem test_decode_setlo : decodeHost 0b00001000000000001111111110011100 = .ok (.setlo (-100)) := by decide
theorem test_decode_sethi : decodeHost 0b00001001000000000000101101010100 = .ok (.sethi 2900) := by decide
theorem test_decode_getemis : decodeHost 0b00001010000000000000000000000000 = .ok .getemis := by decide
theorem test_decode_shutdown : decodeHost 0b00001011000000000000000000000000 = .ok .shutdown := by decide
theorem test_decode_rdreg : decodeHost 0b00001100000001100000000000000000 = .ok (.rdreg 6) := by decide
theorem test_decode_rdfb : decodeHost 0b00001101000000000000011000000101 = .ok (.rdfb 1541) := by decide
theorem test_decode_rds : decodeHost 0b00001110000000000000001011111111 = .ok (.rds 767) := by decide
theorem test_decode_rdg : decodeHost 0b00001111000000000000000110000000 = .ok (.rdg 384) := by decide
theorem test_decode_wQemis : decodeWire 0b10100101010101010000000111111011 = .ok .wQemis := by decide
theorem test_decode_wSetfps8 : decodeWire 0b10100101001001010000010011001110 = .ok .wSetfps8 := by decide
theorem test_decode_wStart : decodeWire 0b10100101001101010000001011011100 = .ok .wStart := by decide
theorem test_decode_wStop : decodeWire 0b10100101001101010000000111011011 = .ok .wStop := by decide
theorem test_decode_wCmd : decodeWire 0b10100101111111111111111110100011 = .ok (.wCmd 0xFF 0xFF) := by decide

/-- Illegal words at the port (2.8). -/
theorem test_illegal_words :
    decodeHost 0x00000000 = .error .reservedOp ∧ decodeHost 0x10000000 = .error .reservedOp ∧
    decodeHost 0xFF000000 = .error .reservedOp ∧ decodeHost 0xA55501FB = .error .reservedOp ∧
    decodeHost 0x01000001 = .error .reservedField ∧ decodeHost 0x01010000 = .error .reservedField ∧
    decodeHost 0x02000100 = .error .reservedField ∧ decodeHost 0x03250401 = .error .reservedField ∧
    decodeHost 0x05000609 = .error .readLength ∧ decodeHost 0x05010000 = .error .reservedField ∧
    decodeHost 0x07800000 = .error .reservedField ∧ decodeHost 0x08010000 = .error .reservedField ∧
    decodeHost 0x0C0C0000 = .error .registerNumber ∧ decodeHost 0x0C000001 = .error .reservedField ∧
    decodeHost 0x0D000608 = .error .fbAddress ∧ decodeHost 0x0E000300 = .error .sampleIndex ∧
    decodeHost 0x0F000300 = .error .cellIndex ∧ decodeHost 0x0F010000 = .error .reservedField := by decide

/-- Numbers that are no packet: a wrong checksum, a wrong header (R97, R101). -/
theorem test_no_packet : decodeWire 0xA5000000 = .error .packetChecksum ∧
    decodeWire 0x01000000 = .error .packetHeader := by decide

/-- The host's two views of a word. -/
theorem test_tableWord : decodeTableWord 32 0x05000608 = some (.read 1544) ∧
    decodeTableWord 32 0xA53501DB = some .wStop ∧ decodeTableWord 32 0x05000609 = none := by decide

/-- The words of the pseudo-operations (R110, R111). -/
theorem test_pseudo : Pseudo.words .init = [0x01000000, 0x03250400, 0x03350200] ∧
    Pseudo.words .frame = [0x05000608, 0x06000000, 0x07000000] ∧ Pseudo.words .qemis = [0x04550104] ∧
    Pseudo.words .stop = [0x03350100] ∧
    Pseudo.words (.normr 2100 2900) = [0x08000834, 0x09000B54, 0x07000000] := by decide

/-- Written forms (R109). -/
theorem test_text : text (.query 0x55 0x01 4) = "QUERY 85, 1, 4" ∧ text (.setlo (-100)) = "SETLO -100" := by
  decide +kernel

/-! ## States for the tests -/

/-- An open channel, nothing else. -/
def opened : State := { State.reset with chstate := .opened }

/-- A failed channel, seven bytes counted (2.3, last lines but one). -/
def failed : State := { State.reset with chstate := .failed, flen := 7 }

/-- A receive of `n` bytes with one byte `0x11` in the buffer, and what RX then holds. -/
def receiving (n : Count) (k : RxKind) (rx : List RxItem) : State :=
  { opened with fb := [(0, 0x11)], flen := 1, rxop := some ⟨n, k⟩, rx := rx }

/-- A decoded frame, every sample and the range at the given values. -/
def uniform (v lo hi : Sample) : Decoded := ⟨2500, Vector.replicate 768 v, v, v, lo, hi⟩

/-- A frame decoded, no image yet. -/
def decodedSt (v lo hi : Sample) : State := { State.reset with decoded := some (uniform v lo hi) }

/-- A frame decoded and an image made. -/
def imaged (v : Sample) (g : Byte) : State :=
  { decodedSt v v v with grid := some (Vector.replicate 768 g) }

/-- A full buffer: one byte at the even addresses, one at the odd ones. -/
@[irreducible] def fullFb (even odd : Byte) : Memory := (List.range 1544).map fun a => (a, if a % 2 = 0 then even else odd)

/-- An idle open engine whose buffer is full. -/
def fullSt (even odd : Byte) : State := { opened with fb := fullFb even odd, flen := 1544 }

/-- What an outcome shows, when it is a next state. -/
def after {α : Type} (o : Out) (f : State → α) : Option α :=
  match o with
  | .next t => some (f t)
  | .fault _ => none
  | .refused _ => none

/-- The last result handed over. -/
def lastResult (t : State) : Option (Byte × Word) := t.results.getLast?.map fun r => (r.code, r.val)

/-! ## One step of each instruction -/

/-- 2.9: the four cases of OPEN. -/
theorem test_open :
    after (exec .openCh { State.reset with opens := [.available [.byte 1]] })
      (fun t => (t.chstate, t.rx, lastResult t)) = some (.opened, [.byte 1], some (0, 0)) ∧
    after (exec .openCh { State.reset with opens := [.unavailable] }) (fun t => (t.chstate, lastResult t)) =
      some (.closed, some (1, 0)) ∧
    after (exec .openCh opened) (fun t => (t.chstate, lastResult t)) = some (.opened, some (1, 1)) ∧
    after (exec .openCh failed) (fun t => (t.chstate, lastResult t)) = some (.failed, some (1, 2)) := by decide

/-- R132. -/
theorem test_close : after (exec .close opened) (fun t => (t.chstate, lastResult t)) = some (.closed, some (0, 0)) ∧
    after (exec .close State.reset) (fun t => (t.chstate, lastResult t)) = some (.closed, some (0, 0)) := by decide

/-- 2.1: the first sum that wraps, and the greatest. -/
theorem test_send_checksum :
    after (exec (.send 0x5B 0x00) opened) (fun t => (t.tx, lastResult t)) =
      some ([0xA5, 0x5B, 0x00, 0x00], some (0, 0)) ∧
    after (exec (.send 0xFF 0xFF) failed) State.tx = some [0xA5, 0xFF, 0xFF, 0xA3] := by decide

/-- 2.1: on a closed channel nothing is sent. -/
theorem test_send_closed : after (exec (.send 0x5B 0x00) State.reset) (fun t => (t.tx, lastResult t)) =
    some ([], some (4, 0x035B0000)) := by decide

/-- 2.3: QUERY with a response of no byte; and of four. -/
theorem test_query : after (exec (.query 0x55 0x01 0) opened) (fun t => (t.tx, t.flen, lastResult t)) =
      some ([0xA5, 0x55, 0x01, 0xFB], 0, some (0, 0)) ∧
    after (exec (.query 0x55 0x01 4) opened) (fun t => (t.tx, t.rxop, lastResult t)) =
      some ([0xA5, 0x55, 0x01, 0xFB], some ⟨4, .plain⟩, none) := by decide

/-- 2.3: READ 0 empties the buffer and completes; READ on a failed channel changes nothing. -/
theorem test_read :
    after (exec (.read 0) { failed with chstate := .opened, rx := [.byte 1] }) (fun t => (t.flen, t.rx, lastResult t)) =
      some (0, [.byte 1], some (0, 0)) ∧
    after (exec (.read 1544) failed) (fun t => (t.flen, lastResult t)) = some (7, some (2, 0)) ∧
    after (exec (.read 1544) State.reset) lastResult = some (some (4, 0x05000608)) := by decide

/-- 2.3: the last byte of a READ 2, with the rest of RX untouched. -/
theorem test_receive_last : after (step (receiving 2 .plain [.byte 0x22, .byte 3]))
    (fun t => (Memory.read 1 t.fb, t.flen, t.rx, lastResult t)) =
      some (some 0x22, 2, [.byte 3], some (0, 2)) := by decide

/-- 2.3: `01 err 03` under READ 3. -/
theorem test_receive_err : after (step (receiving 3 .plain [.err, .byte 3]))
    (fun t => (t.flen, t.chstate, t.rx, lastResult t)) = some (1, .failed, [.byte 3], some (2, 1)) := by decide

/-- 2.3: abort after one byte. -/
theorem test_receive_abort : after (step { receiving 3 .plain [.byte 2] with sched := [.abort] })
    (fun t => (t.flen, t.chstate, t.rx, lastResult t)) = some (1, .opened, [.byte 2], some (7, 1)) := by decide

/-- E11, P5: the byte at index 2 becomes EMIS at the last byte of the response. -/
theorem test_getemis : after (exec .getemis opened) (fun t => (t.tx, t.rxop)) =
      some ([0xA5, 0x55, 0x01, 0xFB], some ⟨4, .emis⟩) ∧
    after (step { opened with
        fb := [(0, 0x11), (1, 0x22), (2, 0x5F)], flen := 3, rxop := some ⟨4, .emis⟩, rx := [.byte 0x33] })
      (fun t => (t.emis, t.flen, lastResult t)) = some (some 95, 4, some (0, 95)) := by decide

/-- R146: in FAILED the stop packet goes out; in CLOSED nothing does. -/
theorem test_shutdown :
    after (exec .shutdown failed) (fun t => (t.tx, t.chstate, lastResult t)) =
      some ([0xA5, 0x35, 0x01, 0xDB], .closed, some (0, 0)) ∧
    after (exec .shutdown State.reset) (fun t => (t.tx, lastResult t)) = some ([], some (0, 0)) := by decide

/-- 2.4: DECODE after reset, and with FLEN = 7, over an earlier image. -/
theorem test_decode_malformed : after (exec .decode State.reset) lastResult = some (some (3, 0)) ∧
    after (exec .decode { imaged 2500 128 with flen := 7 }) (fun t => (t.svalid, t.gvalid, lastResult t)) =
      some (false, false, some (3, 7)) := by decide

/-- 2.2: the last sample and the ambient field of a full buffer of C4 09, and of FF FF. -/
theorem test_decode_fields : (fullFb 0xC4 0x09).sampleAt 767 = some 2500 ∧ (fullFb 0xC4 0x09).ambient = some 2500 ∧
    (fullFb 0xFF 0xFF).sampleAt 0 = some (-1) ∧ (fullFb 0xFF 0xFF).ambient = some 65535 := by decide +kernel

/-- 2.2: the corner values of the two conversions. -/
theorem test_fields : (s16le 0x00 0x80).toInt = -32768 ∧ (s16le 0xFF 0x7F).toInt = 32767 ∧
    (s16le 0x9C 0xFF).toInt = -100 ∧ (s16le 0x9C 0x9C).toInt = -25444 ∧ (u16le 0x10 0x27).toNat = 10000 ∧
    (u16le 0x9C 0x9C).toNat = 40092 := by decide

/-- E6: sentinel extrema are recovered; the comparison is the signed one (R173). -/
theorem test_extrema : minOf #v[(-100 : Sample), 3000, 0x8000, 0x7FFF, 2500] = 0x8000 ∧
    maxOf #v[(-100 : Sample), 3000, 0x8000, 0x7FFF, 2500] = 0x7FFF ∧ minOf #v[(-100 : Sample), 100] = -100 ∧
    maxOf #v[(-100 : Sample), 100] = 100 := by decide

/-- 2.5: ends, ties, both clamps, the widest range. -/
theorem test_quantise : quantise 2100 2100 2900 = 0 ∧ quantise 2900 2100 2900 = 255 ∧ quantise 2101 2100 2900 = 0 ∧
    quantise 2102 2100 2900 = 1 ∧ quantise 2500 2100 2900 = 128 ∧ quantise 2000 2100 2900 = 0 ∧
    quantise 3000 2100 2900 = 255 ∧ quantise 2500 2400 2800 = 64 ∧ quantise 1 0 510 = 1 ∧ quantise 0 (-1) 1 = 128 ∧
    quantise 0 0x8000 0x7FFF = 128 ∧ quantise (-1) 0x8000 0x7FFF = 127 ∧ quantise 0x7FFF 0x8000 0x8001 = 255 := by
  decide

/-- 2.5: the zero range and a reversed one. -/
theorem test_quantise_degenerate : quantise 7 7 7 = 128 ∧ quantise 9 7 7 = 128 ∧ quantise 10 10 0 = 0 ∧
    quantise 0 10 0 = 255 ∧ quantise 5 10 0 = 128 ∧ quantise 12 10 0 = 0 ∧ quantise (-3) 10 0 = 255 ∧
    quantise 0x8000 0x7FFF 0x7FFE = 255 := by decide

/-- 2.6: NORM of a uniform frame gives 128; with the range 2400 to 2800 it gives 64. -/
theorem test_norm :
    after (exec .norm (decodedSt 2500 2500 2500)) (fun t => (t.grid.map fun g => g[0], lastResult t)) =
      some (some 128, some (0, 0)) ∧
    after (exec .norm (decodedSt 2500 2400 2800)) (fun t => t.grid.map fun g => g[0]) = some (some 64) := by
  decide +kernel

/-- 2.6: with nothing decoded. -/
theorem test_norm_noData : after (exec .norm State.reset) lastResult = some (some (6, 0x07000000)) := by decide

/-- 2.6: SETLO 2400 leaves the image. -/
theorem test_setlo : after (exec (.setlo 2400) (imaged 2500 128))
      (fun t => (t.decoded.map fun d => (d.rlo, d.rhi), t.gvalid, lastResult t)) =
      some (some (2400, 2500), true, some (0, 0)) ∧
    after (exec (.setlo 2100) State.reset) lastResult = some (some (6, 0x08000834)) := by decide

/-- 2.6: SETHI 2800. -/
theorem test_sethi : after (exec (.sethi 2800) (imaged 2500 128))
      (fun t => (t.decoded.map fun d => (d.rlo, d.rhi), lastResult t)) =
      some (some (2500, 2800), some (0, 0)) ∧
    after (exec (.sethi 2900) State.reset) lastResult = some (some (6, 0x09000B54)) := by decide

/-- 2.7: after reset. -/
theorem test_rdreg_reset : after (exec (.rdreg 0) State.reset) lastResult = some (some (0, 0)) ∧
    after (exec (.rdreg 11) State.reset) lastResult = some (some (0, 115200)) ∧
    after (exec (.rdreg 5) State.reset) lastResult = some (some (6, 0x0C050000)) ∧
    after (exec (.rdreg 10) State.reset) lastResult = some (some (6, 0x0C0A0000)) := by decide

/-- P3: a negative register comes back sign-extended. -/
theorem test_rdreg_signed : after (exec (.rdreg 6) (decodedSt (-100) 0 0)) lastResult =
    some (some (0, 0xFFFFFF9C)) := by decide

/-- 2.7: values of STATUS. -/
theorem test_status : opened.status = 0x01 ∧ failed.status = 0x02 ∧ (imaged 2500 128).status = 0x0C ∧
    State.status { imaged 2500 128 with chstate := .opened } = 0x0D ∧
    State.status { State.reset with emis := some 95 } = 0x10 ∧
    State.status { imaged 2500 128 with chstate := .opened, emis := some 95 } = 0x1D := by decide

/-- P5: RDFB below and at FLEN. -/
theorem test_rdfb : after (exec (.rdfb 0) (receiving 2 .plain [])) lastResult = some (some (0, 0x11)) ∧
    after (exec (.rdfb 4) opened) lastResult = some (some (6, 0x0D000004)) := by decide

/-- R212. -/
theorem test_rds : after (exec (.rds 5) (decodedSt (-100) 0 0)) lastResult = some (some (0, 0xFFFFFF9C)) ∧
    after (exec (.rds 767) State.reset) lastResult = some (some (6, 0x0E0002FF)) := by decide +kernel

/-- R213. -/
theorem test_rdg : after (exec (.rdg 384) (imaged 2500 128)) lastResult = some (some (0, 128)) ∧
    after (exec (.rdg 0) (decodedSt 2500 0 0)) lastResult = some (some (6, 0x0F000000)) := by decide +kernel

/-- R150 to R153. -/
theorem test_named_packets : after (exec .wQemis opened) State.tx = some [0xA5, 0x55, 0x01, 0xFB] ∧
    after (exec .wSetfps8 opened) State.tx = some [0xA5, 0x25, 0x04, 0xCE] ∧
    after (exec .wStart opened) State.tx = some [0xA5, 0x35, 0x02, 0xDC] ∧
    after (exec .wStop opened) State.tx = some [0xA5, 0x35, 0x01, 0xDB] := by decide

/-- R154, 2.1. -/
theorem test_wCmd : after (exec (.wCmd 0x80 0x80) opened) State.tx = some [0xA5, 0x80, 0x80, 0xA5] ∧
    after (exec (.wCmd 0x25 0x07) State.reset) State.tx = some [] := by decide

/-- The word placed by the host is the instruction the next step runs, from reset and over a receive in progress. -/
theorem test_withFetchWord :
    after (step (State.reset.withFetchWord 32 0x0C0B0000)) lastResult = some (some (0, 115200)) ∧
    after (step ((receiving 3 .plain []).withFetchWord 32 0xA53501DB)) State.tx = some [0xA5, 0x35, 0x01, 0xDB] := by
  decide

/-- 2.8: an illegal word handed over at reset. -/
theorem test_illegalOp : after (step { State.reset with sched := [.word 0x05000609] })
    (fun t => (lastResult t, t.ecause, t.einfo, t.eflags)) = some (some (5, 0x05000609), 5, 0x05000609, 0x20) := by
  decide

/-- R29: rows and columns of an index. -/
theorem test_rows : cellIndex 0 31 = 31 ∧ cellIndex 1 0 = 32 ∧ cellIndex 23 31 = 767 ∧ cellRow 767 = 23 ∧
    cellColumn 767 = 31 := by decide

/-- E2, E3: centi-degrees seen in degrees. -/
theorem test_degrees : deg 10000 = 100 ∧ deg (-100) = -1 := by norm_num [deg]

/-- R178 on P3's frame, and its ambient value taken as unsigned: S[0 .. 766] = -100, S[767] = 100, AMB = 10000. -/
theorem test_frameInDegrees :
    let d : Decoded := ⟨10000, tabulate fun i => if i = 767 then 100 else -100, -100, 100, -100, 100⟩
    d.inDegrees.ambientTemp = 100 ∧ d.inDegrees.temperatures[23][31] = 1 ∧ d.inDegrees.temperatures[23][30] = -1 ∧
      d.inDegrees.temperatures[0][31] = -1 ∧ d.inDegrees.tMin = -1 ∧ d.inDegrees.tMax = 1 ∧
      (Decoded.inDegrees { d with amb := 40092 }).ambientTemp = 400.92 := by
  decide +kernel

/-- E11: the emissivity of the byte 95; absent while EVALID = 0. -/
theorem test_emissivity : State.emissivity { opened with emis := some 95 } = some (95 / 100) ∧
    opened.emissivity = none := by decide +kernel

/-! ## Witnesses: for each obligation with hypotheses, what meets them, clause by clause at a boundary value -/

/-- A receive in progress, in the state a run reaches: `FLEN` = 1, the byte in place, the channel open. -/
theorem receiving_inv (n : Count) (k : RxKind) (rx : List RxItem) (sched : List Move)
    (hn : 1 < n.toNat ∧ n.toNat ≤ 1544) (hk : k = .emis → n = 4) :
    EngineInv { receiving n k rx with sched := sched } where
  fbFilled := rfl
  flenBound := show 1 ≤ 1544 by decide
  receiving := fun r hr => by
    have h : (⟨n, k⟩ : Receive) = r := Option.some.inj hr
    subst h
    exact ⟨rfl, hn.1, hn.2, hk⟩
  extrema := fun d hd => by cases hd
  gridDecoded := fun h => by cases h
  causeBound := Nat.zero_le 7
  flagZero := show (0 : Byte).getLsbD 0 = false by decide
  causeFlagged := fun h => absurd rfl h
  noFaultYet := fun _ => ⟨rfl, rfl⟩
  wholePackets := ⟨[], rfl⟩
  nothingHeld := rfl

/-- A frame decoded, an image made, a fault recorded, one packet sent: the invariant holds with every part in use. -/
theorem imaged_inv : EngineInv { imaged 2500 128 with
    tx := [0xA5, 0x35, 0x02, 0xDC], ecause := 6, einfo := 0x0F000000, eflags := 0x40 } where
  fbFilled := rfl
  flenBound := by decide
  receiving := fun r hr => by cases hr
  extrema := fun d hd => by
    have h : uniform 2500 2500 2500 = d := Option.some.inj hd
    subst h
    exact ⟨fun i => by simp [uniform], ⟨0, by simp [uniform]⟩, ⟨0, by simp [uniform]⟩⟩
  gridDecoded := fun _ => rfl
  causeBound := by decide
  flagZero := by decide
  causeFlagged := fun _ => by decide
  noFaultYet := fun h => absurd h (by decide)
  wholePackets := ⟨[(0x35, 0x02)], by decide⟩
  nothingHeld := rfl

theorem keys_of_range (n : Nat) (f : Nat → Byte) :
    ((List.range n).map fun a => (a, f a)).map Prod.fst = List.range n := by simp [Function.comp_def]

/-- Every byte of the full buffer has a value. -/
theorem fullFb_read (e o : Byte) (a : Nat) (h : a < 1544) : (Memory.read a (fullFb e o)).isSome = true :=
  (Memory.filled_read (n := 1544) (by unfold fullFb; exact keys_of_range 1544 _) a).2 h

/-- The value of a byte of the full buffer. -/
theorem fullFb_value (e o : Byte) (a : Nat) (h : a < 1544) :
    Memory.read a (fullFb e o) = some (if a % 2 = 0 then e else o) := by
  obtain ⟨b, hb⟩ := Option.isSome_iff_exists.1 (fullFb_read e o a h)
  have hm := Memory.mem_of_read hb
  unfold fullFb at hm
  obtain ⟨x, -, hx⟩ := List.mem_map.1 hm
  rw [hb, ← (Prod.mk.inj hx).2, (Prod.mk.inj hx).1]

/-- Every sample of a full buffer has the same value. -/
theorem fullFb_sample (e o : Byte) (i : Nat) (h : i < 768) : (fullFb e o).sampleAt i = some (s16le e o) := by
  rw [Memory.sampleAt, fullFb_value e o _ (by omega), fullFb_value e o _ (by omega),
    if_pos (by omega), if_neg (by omega)]

/-- DECODE of a full buffer completes. -/
theorem decode_completes (s : State) (hf : s.flen = 1544) (h : ∀ a, a < 1544 → (Memory.read a s.fb).isSome = true) :
    ∃ t, exec .decode s = .next t := by
  obtain ⟨ha, hv⟩ := Memory.fields_isSome h
  obtain ⟨amb, ha⟩ := Option.isSome_iff_exists.1 ha
  obtain ⟨v, hv⟩ := Option.isSome_iff_exists.1 hv
  exact ⟨_, by simp only [exec, execDecode, hf, ne_eq, not_true, if_false, Memory.decodeFrame, ha, hv]; rfl⟩

/-- After a DECODE that completes, NORM does. -/
theorem norm_completes (s : State) (d : Decoded) (h : s.decoded = some d) : ∃ u, exec .norm s = .next u :=
  ⟨_, by simp only [exec, execNorm, h]; rfl⟩

theorem witness_decodeOfEncode : (Instr.read 1544).wellFormed = true ∧ (Instr.read 1544).isHostOp = true ∧
    (Instr.wCmd 0xFF 0xFF).wellFormed = true ∧ (Instr.wCmd 0xFF 0xFF).isHostOp = false := by decide

theorem witness_encodeOfDecode : decodeWord 0x0D000607 = .ok (.rdfb 1543) ∧ decodeWord 0xA53502DC = .ok .wStart := by
  decide

theorem witness_everyWord : State.reset.rxop = none ∧ IllegalWord 0x05000609 ∧ ¬ IllegalWord 0x05000608 ∧
    ∃ s : State, s.rxop = none ∧ s.sched = .word 0x05000609 :: [] :=
  ⟨rfl, by unfold IllegalWord; decide, by unfold IllegalWord; decide,
    { State.reset with sched := [.word 0x05000609] }, rfl, rfl⟩

theorem witness_everyPacket : ∃ s t : State, step s = .next t ∧ t.tx = s.tx ++ [0xA5, 0x35, 0x02, 0xDC] :=
  ⟨{ opened with sched := [.word 0x03350200] }, _, rfl, rfl⟩

theorem witness_stepRuns : decodeHost 0x0B000000 = .ok .shutdown ∧ decodeWire 0xA53501DB = .ok .wStop ∧
    (∃ s : State, s.rxop = none ∧ s.sched = .word 0x0B000000 :: []) ∧
    (∃ s : State, s.rxop = none ∧ s.held = some 0xA53501DB ∧ s.sched = []) ∧
    ∃ s : State, s.rxop = none ∧ s.held = some 0xA53501DB ∧ s.sched = .run :: [] :=
  ⟨by decide, by decide, ⟨{ opened with sched := [.word 0x0B000000] }, rfl, rfl⟩,
    ⟨{ opened with held := some 0xA53501DB }, rfl, rfl, rfl⟩,
    { opened with held := some 0xA53501DB, sched := [.run] }, rfl, rfl, rfl⟩

theorem witness_waitingEngine : ∃ s t : State, s.rxop = some ⟨2, .plain⟩ ∧ s.sched = .word 0x06000000 :: [] ∧
    step s = .next t ∧ t.rxop = none :=
  ⟨{ receiving 2 .plain [.byte 1] with sched := [.word 0x06000000] }, _, rfl, rfl, rfl, rfl⟩

theorem witness_arriving : ∃ s : State, s.waiting = true ∧ s.sched = .arrive .err :: [] :=
  ⟨{ receiving 3 .plain [] with sched := [.arrive .err] }, rfl, rfl⟩

theorem witness_abortEnds : ∃ s : State, s.rxop = some ⟨3, .plain⟩ ∧ s.sched = .abort :: [] :=
  ⟨{ receiving 3 .plain [] with sched := [.abort] }, rfl, rfl⟩

theorem witness_abortIdle : ∃ s : State, s.rxop = none ∧ s.sched = .abort :: [] :=
  ⟨{ opened with sched := [.abort] }, rfl, rfl⟩

/-- Both orders, the byte being the last one wanted (target 2) and not (target 3). -/
theorem witness_abortAndItem :
    (∃ s : State, EngineInv s ∧ s.rxop = some ⟨2, .plain⟩ ∧ s.rx = .byte 9 :: [] ∧ s.sched = .abort :: []) ∧
    (∃ s : State, EngineInv s ∧ s.rxop = some ⟨2, .plain⟩ ∧ s.rx = .byte 9 :: [] ∧ s.sched = .run :: .abort :: [] ∧
      s.flen.toNat + 1 = 2) ∧
    (∃ s : State, EngineInv s ∧ s.rxop = some ⟨3, .plain⟩ ∧ s.rx = .err :: [] ∧ s.sched = .run :: .abort :: []) ∧
    ∃ s : State, EngineInv s ∧ s.rxop = some ⟨3, .plain⟩ ∧ s.rx = .byte 9 :: [] ∧ s.sched = .run :: .abort :: [] ∧
      s.flen.toNat + 1 ≠ 3 :=
  ⟨⟨_, receiving_inv 2 .plain [.byte 9] [.abort] (by decide) (by decide), rfl, rfl, rfl⟩,
    ⟨_, receiving_inv 2 .plain [.byte 9] [.run, .abort] (by decide) (by decide), rfl, rfl, rfl, by decide⟩,
    ⟨_, receiving_inv 3 .plain [.err] [.run, .abort] (by decide) (by decide), rfl, rfl, rfl⟩,
    ⟨_, receiving_inv 3 .plain [.byte 9] [.run, .abort] (by decide) (by decide), rfl, rfl, rfl, by decide⟩⟩

theorem witness_resetFromAny : ∃ s : State, s.waiting = true ∧ s.sched = .reset :: [] :=
  ⟨{ receiving 3 .plain [] with sched := [.reset] }, rfl, rfl⟩

theorem witness_everyWordGetsOneResult : ∃ s t : State, step s = .next t ∧ s.sched.head? ≠ some .reset ∧
    t.results = s.results ++ [⟨0, 0⟩] :=
  ⟨{ opened with sched := [.word 0x02000000] }, _, rfl, by decide, rfl⟩

theorem witness_receivedByte : ∃ s : State, s.rxop = some ⟨3, .plain⟩ ∧ s.rx = .byte 9 :: [] ∧ s.sched = [] ∧
    s.flen.toNat < 1544 ∧ s.flen + 1 ≠ 3 :=
  ⟨receiving 3 .plain [.byte 9], rfl, rfl, rfl, by decide, by decide⟩

/-- A plain receive at the last byte of a frame, and GETEMIS at the fourth byte. -/
theorem witness_lastByte :
    (∃ s : State, s.rxop = some ⟨1544, .plain⟩ ∧ s.rx = .byte 9 :: [] ∧ s.sched = [] ∧ s.flen.toNat < 1544 ∧
      s.flen + 1 = 1544) ∧
    ∃ s : State, s.rxop = some ⟨4, .emis⟩ ∧ s.rx = .byte 9 :: [] ∧ s.sched = [] ∧ s.flen.toNat < 1544 ∧
      s.flen + 1 = 4 ∧ ∀ m, (∀ a, a ≠ s.flen.toNat → Memory.read a m = Memory.read a s.fb) →
        Memory.read 2 m = some 0x5F :=
  ⟨⟨{ opened with fb := fullFb 1 2, flen := 1543, rxop := some ⟨1544, .plain⟩, rx := [.byte 9] }, rfl, rfl, rfl,
      by decide, by decide⟩,
    { opened with
      fb := [(0, 0x11), (1, 0x22), (2, 0x5F)], flen := 3, rxop := some ⟨4, .emis⟩, rx := [.byte 9] },
    rfl, rfl, rfl, by decide, by decide, fun _ h => (h 2 (by decide)).trans rfl⟩

theorem witness_shortRead :
    (∃ s : State, s.rxop = some ⟨3, .plain⟩ ∧ s.rx = .err :: [] ∧ s.sched = []) ∧
    (failed.chstate = .failed ∧ failed.rxop = none ∧ (Instr.read 1544).wellFormed = true ∧
      (Instr.query 0x55 1 4).wellFormed = true ∧ Instr.getemis.wellFormed = true) ∧
    ∃ s : State, s.rxop = some ⟨3, .plain⟩ ∧ s.rx = [] ∧ s.sched = [] :=
  ⟨⟨receiving 3 .plain [.err], rfl, rfl, rfl⟩, by decide, receiving 3 .plain [], rfl, rfl, rfl⟩

/-- For no byte, and for a whole frame. -/
theorem witness_readCollects :
    (∃ s : State, s.chstate = .opened ∧ s.rxop = none ∧ s.sched = [] ∧ (0 : Half).toNat ≤ 1544 ∧
      ([] : List Byte).length = (0 : Half).toNat ∧ s.rx = [].map RxItem.byte ++ [.err]) ∧
    ∃ s : State, s.chstate = .opened ∧ s.rxop = none ∧ s.sched = [] ∧ (1544 : Half).toNat ≤ 1544 ∧
      (List.replicate 1544 (7 : Byte)).length = (1544 : Half).toNat ∧
      s.rx = (List.replicate 1544 7).map RxItem.byte ++ [.err] :=
  ⟨⟨{ opened with rx := [.err] }, rfl, rfl, rfl, by decide, rfl, rfl⟩,
    { opened with rx := (List.replicate 1544 7).map RxItem.byte ++ [.err] }, rfl, rfl, rfl, by decide, List.length_replicate, rfl⟩

theorem witness_querySends :
    (∃ s : State, s.chstate = .opened ∧ s.rxop = none ∧ s.sched = [] ∧ ([] : List Byte).length = (0 : Byte).toNat ∧
      s.rx = [].map RxItem.byte ++ []) ∧
    ∃ s : State, s.chstate = .opened ∧ s.rxop = none ∧ s.sched = [] ∧
      (List.replicate 255 (7 : Byte)).length = (255 : Byte).toNat ∧
      s.rx = (List.replicate 255 7).map RxItem.byte ++ [] :=
  ⟨⟨opened, rfl, rfl, rfl, rfl, rfl⟩,
    { opened with rx := (List.replicate 255 7).map RxItem.byte ++ [] }, rfl, rfl, rfl, List.length_replicate, rfl⟩

theorem witness_getemis : ∃ s : State, s.chstate = .opened ∧ s.rxop = none ∧ s.sched = [] ∧
    s.rx = .byte 0x11 :: .byte 0x22 :: .byte 0x5F :: .byte 0x33 :: [.err] :=
  ⟨{ opened with rx := [.byte 0x11, .byte 0x22, .byte 0x5F, .byte 0x33, .err] }, rfl, rfl, rfl, rfl⟩

theorem witness_open :
    (∃ s : State, s.rxop = none ∧ s.chstate = .closed ∧ s.opens = .available [.err] :: []) ∧
    (∃ s : State, s.rxop = none ∧ s.chstate = .closed ∧ s.opens.head? = some .unavailable) ∧
    (State.reset.rxop = none ∧ State.reset.chstate = .closed ∧ State.reset.opens = []) ∧
    (opened.rxop = none ∧ opened.chstate = .opened) ∧ failed.rxop = none ∧ failed.chstate = .failed :=
  ⟨⟨{ State.reset with opens := [.available [.err]] }, rfl, rfl, rfl⟩,
    ⟨{ State.reset with opens := [.unavailable] }, rfl, rfl, rfl⟩, ⟨rfl, rfl, rfl⟩, ⟨rfl, rfl⟩, rfl, rfl⟩

theorem witness_send : opened.chstate = .opened ∧ failed.chstate = .failed := ⟨rfl, rfl⟩

theorem witness_readStarts : opened.chstate = .opened ∧ opened.rxop = none ∧ (0 : Half).toNat ≤ 1544 ∧
    (1544 : Half).toNat ≤ 1544 ∧ (1544 : Half) ≠ 0 := by decide

theorem witness_queriesStart : opened.chstate = .opened ∧ opened.rxop = none ∧ (255 : Byte) ≠ 0 := by decide

theorem witness_shutdown : opened.chstate ≠ .closed ∧ failed.chstate ≠ .closed ∧ State.reset.chstate = .closed ∧
    State.reset.rxop = none := by decide

theorem witness_notOpen : State.reset.chstate = .closed ∧ State.reset.rxop = none ∧
    (Instr.send 0xFF 0xFF).wellFormed = true ∧ (Instr.query 0xFF 0xFF 255).wellFormed = true ∧
    (Instr.read 1544).wellFormed = true ∧ Instr.getemis.wellFormed = true := by decide

theorem witness_failedLasts : ∃ s t : State, s.chstate = .failed ∧ s.rxop = none ∧ step s = .next t ∧
    s.sched.head? ≠ some .reset ∧ s.sched.head? ≠ some (.word 0x02000000) ∧
    s.sched.head? ≠ some (.word 0x0B000000) ∧ t.results ≠ s.results :=
  ⟨{ failed with sched := [.word 0x05000608] }, _, rfl, rfl, rfl, by decide, by decide, by decide, by decide⟩

theorem witness_decodeRejects : (∃ s : State, s.rxop = none ∧ s.flen = 1543) ∧
    (1543 : Count).toNat ≠ 1544 ∧ State.reset.rxop = none ∧ State.reset.flen.toNat ≠ 1544 :=
  ⟨⟨{ opened with flen := 1543 }, rfl, rfl⟩, by decide, rfl, by decide⟩

theorem witness_decodeParses : (fullSt 0xC4 0x09).flen.toNat = 1544 ∧
    ∀ a, a < 1544 → (Memory.read a (fullSt 0xC4 0x09).fb).isSome = true :=
  ⟨by decide, fun a h => fullFb_read _ _ a h⟩

/-- Two engines whose buffers agree on the fields and differ in the header. -/
theorem witness_decodeDepends : ∃ s s' t t' : State, s.flen.toNat = 1544 ∧ s'.flen.toNat = 1544 ∧ s ≠ s' ∧
    Memory.read 0 s.fb ≠ Memory.read 0 s'.fb ∧
    (∀ a, 4 ≤ a → a ≤ 1541 → Memory.read a s.fb = Memory.read a s'.fb) ∧
    exec .decode s = .next t ∧ exec .decode s' = .next t' := by
  have hs : ∀ a, a < 1544 → (Memory.read a (Memory.insert 0 0xAA (fullFb 1 2))).isSome = true := fun a h => by
    by_cases ha : a = 0
    · subst ha; rw [Memory.read_insert_same]; rfl
    · rw [Memory.read_insert_other 0xAA ha]; exact fullFb_read 1 2 a h
  obtain ⟨t, ht⟩ := decode_completes (fullSt 1 2) rfl fun a h => fullFb_read 1 2 a h
  obtain ⟨t', ht'⟩ := decode_completes { failed with fb := Memory.insert 0 0xAA (fullFb 1 2), flen := 1544 } rfl hs
  refine ⟨_, _, t, t', rfl, rfl, fun h => ?_, ?_, fun a ha _ => ?_, ht, ht'⟩
  · exact absurd (congrArg State.chstate h) (by decide)
  · rw [Memory.read_insert_same]; decide +kernel
  · exact (Memory.read_insert_other 0xAA (by omega) _).symm

theorem witness_completedDecode : ∃ s t : State, s.flen.toNat = 1544 ∧ exec .decode s = .next t :=
  ⟨fullSt 0xC4 0x09, (decode_completes (fullSt 0xC4 0x09) rfl fun a h => fullFb_read _ _ a h).imp fun _ h => ⟨rfl, h⟩⟩

/-- The vector of 768 samples, the one at `i` being 1 and the others 0. -/
def spike (i : Fin 768) : Vector Sample 768 := tabulate fun j => if j = i then 1 else 0

theorem witness_reduction :
    (∃ (v : Vector Sample 768) (a b : List Sample), v.toList = a ++ b ∧ a.length = 1 ∧ b.length = 767) ∧
    ∃ v u : Vector Sample 768, v ≠ u ∧ v.toList.Perm u.toList := by
  refine ⟨⟨spike 0, (spike 0).toList.take 1, (spike 0).toList.drop 1, (List.take_append_drop _ _).symm, ?_, ?_⟩,
    spike 0, (spike 0).reverse, fun h => ?_, ?_⟩
  · rw [List.length_take, Vector.length_toList]; rfl
  · rw [List.length_drop, Vector.length_toList]
  · have h0 := congrArg (fun v : Vector Sample 768 => v[0]) h
    rw [Vector.getElem_reverse] at h0
    exact absurd h0 (by simp [spike])
  · rw [Vector.toList_reverse]; exact (List.reverse_perm _).symm

theorem witness_setRange : (decodedSt 5 0 9).decoded = some (uniform 5 0 9) := rfl

theorem witness_norm : (decodedSt 5 0 9).decoded = some (uniform 5 0 9) := rfl

theorem witness_quantiserExact : (7 : Sample) = 7 ∧ (0x8000 : Sample) ≠ 0x7FFF := by decide

theorem witness_degrees : (2900 : Sample) ≠ 2100 := by decide

theorem witness_monotone : (0x8000 : Sample) ≠ 0x7FFF ∧
    ((0x8000 : Sample).toInt < (0x7FFF : Sample).toInt ∧ (0x7FFE : Sample).toInt < (0x7FFF : Sample).toInt) ∧
    ((0 : Sample).toInt < (10 : Sample).toInt ∧ (-3 : Sample).toInt < (12 : Sample).toInt) := by decide

theorem witness_clamp : (2100 : Sample).toInt < (2900 : Sample).toInt ∧ (2100 : Sample).toInt ≤ (2100 : Sample).toInt ∧
    (0x8000 : Sample).toInt ≤ (2100 : Sample).toInt ∧ (2900 : Sample).toInt ≤ (0x7FFF : Sample).toInt := by decide

theorem witness_zeroRange : (decodedSt 5 9 9).decoded = some (uniform 5 9 9) ∧ (uniform 5 9 9).rhi = (uniform 5 9 9).rlo :=
  ⟨rfl, rfl⟩

theorem witness_widths : (0x7FFF : Sample).toInt - (0x8000 : Sample).toInt ≠ 0 ∧
    (0x8000 : Sample).toInt ≤ (0x7FFF : Sample).toInt ∧ (0x7FFF : Sample).toInt ≤ (0x7FFF : Sample).toInt ∧
    (0x8000 : Sample).toInt < (0x7FFF : Sample).toInt := by decide

/-- DECODE then NORM of a full buffer, once with two different samples and once with all samples equal. -/
theorem witness_freshFrame :
    (∃ s t u : State, s.flen.toNat = 1544 ∧ exec .decode s = .next t ∧ exec .norm t = .next u ∧
      ∃ d, t.decoded = some d ∧ d.tmin ≠ d.tmax) ∧
    ∃ s t u : State, s.flen.toNat = 1544 ∧ exec .decode s = .next t ∧ exec .norm t = .next u ∧
      ∃ d, t.decoded = some d ∧ d.tmin = d.tmax := by
  have run : ∀ s : State, s.flen = 1544 → (∀ a, a < 1544 → (Memory.read a s.fb).isSome = true) →
      ∃ t u v d, exec .decode s = .next t ∧ exec .norm t = .next u ∧ t.decoded = some d ∧ s.fb.samples = some v ∧
        d.tmin = minOf v ∧ d.tmax = maxOf v := fun s hf h => by
    obtain ⟨t, ht⟩ := decode_completes s hf h
    rcases execDecode_next ht with ⟨hne, -⟩ | ⟨-, amb, v, -, hv, rfl⟩
    · exact absurd hf hne
    · obtain ⟨u, hu⟩ := norm_completes
        (State.respond ⟨0, 0⟩ { s with decoded := some (decodedFrame amb v), grid := none }) (decodedFrame amb v) rfl
      exact ⟨_, u, v, _, ht, hu, rfl, hv, rfl, rfl⟩
  constructor
  · have hs : ∀ a, a < 1544 → (Memory.read a (Memory.insert 4 0xAA (fullFb 1 2))).isSome = true := fun a h => by
      by_cases ha : a = 4
      · subst ha; rw [Memory.read_insert_same]; rfl
      · rw [Memory.read_insert_other 0xAA ha]; exact fullFb_read 1 2 a h
    obtain ⟨t, u, v, d, ht, hu, hd, hv, hlo, hhi⟩ :=
      run { opened with fb := Memory.insert 4 0xAA (fullFb 1 2), flen := 1544 } rfl hs
    refine ⟨_, t, u, rfl, ht, hu, d, hd, fun he => ?_⟩
    have h0 : v[0] = 0x02AA := Option.some.inj ((collect_eq_some.1 hv 0 (by decide)).symm.trans (by decide +kernel))
    have h1 : v[1] = 0x0201 := Option.some.inj ((collect_eq_some.1 hv 1 (by decide)).symm.trans (by decide +kernel))
    have m0 : v[0] ∈ v.toList := by simp
    have m1 : v[1] ∈ v.toList := by simp
    rw [hlo, hhi] at he
    have a := (minOf_spec v).1 _ m1
    have b := (maxOf_spec v).1 _ m0
    rw [h1, he] at a
    rw [h0] at b
    exact absurd (b.trans a) (by decide)
  · obtain ⟨t, u, v, d, ht, hu, hd, hv, hlo, hhi⟩ := run (fullSt 0xC4 0x09) rfl fun a h => fullFb_read _ _ a h
    have hall : ∀ x, x ∈ v.toList → x = s16le 0xC4 0x09 := fun x hx => by
      obtain ⟨i, hi, rfl⟩ := List.mem_iff_getElem.1 hx
      have hi' : i < 768 := by simpa using hi
      have := Option.some.inj ((collect_eq_some.1 hv i hi').symm.trans (fullFb_sample _ _ i hi'))
      simpa using this
    exact ⟨_, t, u, rfl, ht, hu, d, hd, by rw [hlo, hhi, hall _ (minOf_spec v).2, hall _ (maxOf_spec v).2]⟩

theorem witness_rdreg : (decodedSt 5 0 9).rxop = none ∧ (decodedSt 5 0 9).decoded = some (uniform 5 0 9) ∧
    State.reset.decoded = none ∧ State.reset.emis = none ∧
    (∃ s : State, s.rxop = none ∧ s.emis = some 95) ∧ 11 < (12 : Byte).toNat ∧ 11 < (255 : Byte).toNat :=
  ⟨rfl, rfl, rfl, rfl, ⟨{ opened with emis := some 95 }, rfl, rfl⟩, by decide, by decide⟩

/-- At FLEN - 1, at FLEN, and past the buffer. -/
theorem witness_rdfb : (∃ s : State, s.rxop = none ∧ (1543 : Half).toNat ≤ 1543 ∧ (1543 : Half).toNat < s.flen.toNat ∧
      (Memory.read (1543 : Half).toNat s.fb).isSome = true) ∧
    (∃ s : State, s.rxop = none ∧ (7 : Half).toNat ≤ 1543 ∧ s.flen.toNat ≤ (7 : Half).toNat) ∧
    1543 < (1544 : Half).toNat :=
  ⟨⟨fullSt 1 2, rfl, by decide, by decide, fullFb_read 1 2 _ (by decide)⟩, ⟨failed, rfl, by decide, by decide⟩,
    by decide⟩

theorem witness_rdsRdg : (imaged 5 6).rxop = none ∧ (imaged 5 6).decoded = some (uniform 5 5 5) ∧
    (imaged 5 6).grid = some (Vector.replicate 768 6) ∧ (767 : Half).toNat < 768 ∧ 767 < (768 : Half).toNat :=
  ⟨rfl, rfl, rfl, by decide, by decide⟩

theorem witness_readout : (imaged 5 6).rxop = none ∧ State.reset.rxop = none ∧
    (∃ i : Instr, (∃ r, i = .rdreg r) ∨ (∃ a, i = .rdfb a) ∨ (∃ k, i = .rds k) ∨ ∃ k, i = .rdg k) :=
  ⟨rfl, rfl, .rdreg 0, .inl ⟨0, rfl⟩⟩

theorem witness_noValidData : State.reset.rxop = none ∧ State.reset.svalid = false ∧ State.reset.gvalid = false ∧
    State.reset.evalid = false ∧ State.reset.flen.toNat ≤ (0 : Half).toNat ∧ Instr.norm.wellFormed = true ∧
    (Instr.setlo 0x8000).wellFormed = true ∧ (Instr.sethi 0x7FFF).wellFormed = true ∧
    (Instr.rds 767).wellFormed = true ∧ (Instr.rdreg 9).wellFormed = true ∧ (Instr.rdg 767).wellFormed = true ∧
    (Instr.rdreg 10).wellFormed = true ∧ (Instr.rdfb 0).wellFormed = true := by decide

theorem witness_wire : opened.chstate ≠ .closed ∧ failed.chstate ≠ .closed ∧ State.reset.chstate = .closed := by decide

theorem witness_faultEntry : (EngineFault.channelUnavailable, (1 : Byte)) ∈
    [(EngineFault.channelUnavailable, (1 : Byte)), (.shortRead, 2), (.malformedFrame, 3), (.notOpen, 4),
      (.illegalOp, 5), (.noValidData, 6), (.aborted, 7)] := by decide

theorem witness_onlyReset : (∃ s t : State, step s = .next t ∧ s.sched.head? ≠ some .reset ∧ t.ecause = 5) ∧
    ∃ s t : State, step s = .next t ∧ s.sched.head? = some .reset :=
  ⟨⟨{ opened with sched := [.word 0x00000000] }, _, rfl, by decide, rfl⟩, { failed with sched := [.reset] }, _, rfl,
    rfl⟩

/-- Each of the four ways CHSTATE changes, and each of the converses. -/
theorem witness_channel :
    (∃ s t : State, step s = .next t ∧ s.chstate = .closed ∧ t.chstate = .opened ∧ s.opens = .available [] :: []) ∧
    (∃ s t : State, step s = .next t ∧ s.chstate = .opened ∧ t.chstate = .failed ∧ s.rxop = some ⟨3, .plain⟩ ∧
      s.rx = .err :: [] ∧ s.sched = []) ∧
    (∃ s t : State, step s = .next t ∧ s.chstate = .failed ∧ t.chstate = .closed ∧ s.sched.head? ≠ some .reset) ∧
    (∃ s t : State, step s = .next t ∧ s.chstate = .opened ∧ t.chstate = .closed ∧ s.sched.head? = some .reset) ∧
    ∃ s : State, s.chstate = .closed ∧ s.opens = .unavailable :: [] :=
  ⟨⟨{ State.reset with opens := [.available []], sched := [.word 0x01000000] }, _, rfl, rfl, rfl, rfl⟩,
    ⟨receiving 3 .plain [.err], _, rfl, rfl, rfl, rfl, rfl, rfl⟩,
    ⟨{ failed with sched := [.word 0x0B000000] }, _, rfl, rfl, rfl, by decide⟩,
    ⟨{ opened with sched := [.reset] }, _, rfl, rfl, rfl, rfl⟩, { State.reset with opens := [.unavailable] }, rfl, rfl⟩

theorem witness_writeMatrix : (∃ t : State, opened.rxop = none ∧ exec (.send 0x35 0x02) opened = .next t) ∧
    ∃ s t : State, s.rxop = some ⟨3, .plain⟩ ∧ s.sched = [] ∧ step s = .next t ∧ t.flen ≠ s.flen :=
  ⟨⟨_, rfl, rfl⟩, receiving 3 .plain [.byte 9], _, rfl, rfl, rfl, by decide⟩

theorem witness_outOfRange : State.reset.rxop = none ∧
    ((Instr.read 1545).isHostOp = true ∧ (Instr.read 1545).wellFormed = false) ∧
    ((Instr.rdreg 12).isHostOp = true ∧ (Instr.rdreg 12).wellFormed = false) ∧
    ((Instr.rdfb 1544).isHostOp = true ∧ (Instr.rdfb 1544).wellFormed = false) ∧
    ((Instr.rds 768).isHostOp = true ∧ (Instr.rds 768).wellFormed = false) ∧
    ((Instr.rdg 768).isHostOp = true ∧ (Instr.rdg 768).wellFormed = false) := by decide

theorem witness_everyStepKeeps : (∃ s t : State, EngineInv s ∧ step s = .next t ∧ t.flen = 2) ∧
    ∃ s t : State, EngineInv s ∧ s.gvalid = true ∧ s.ecause = 6 ∧ step s = .next t :=
  ⟨⟨_, _, receiving_inv 2 .plain [.byte 9] [] (by decide) (by decide), rfl, rfl⟩,
    ⟨_, _, imaged_inv, rfl, rfl, rfl⟩⟩

theorem witness_noStepStops : EngineInv { receiving 4 .emis [.byte 9] with sched := [.run] } :=
  receiving_inv 4 .emis [.byte 9] [.run] (by decide) (by decide)

/-- A SEND at an open channel, one packet sent before it. -/
theorem witness_txGrows : ∃ s t : State, EngineInv s ∧ step s = .next t ∧ t.tx ≠ s.tx :=
  ⟨{ imaged 2500 128 with
      tx := [0xA5, 0x35, 0x02, 0xDC], ecause := 6, einfo := 0x0F000000, eflags := 0x40, chstate := .opened,
      sched := [.word 0x03350100] }, _,
    { imaged_inv with receiving := fun r hr => by cases hr }, rfl, by decide⟩

end Sys2Proof.Tests
end

section
/-! What a transition does to TX (20_memory.md R64, R67; 30_encoding.md R96): the receive procedure leaves it alone, and
an instruction adds at most the one packet that is its own. -/

namespace Sys2Proof

/-- The opcode and payload of the packet an instruction puts on TX when it sends: its operands, or the named packet
(40_transport.md R133, R135, R138, R146, R150 to R154). -/
def Instr.packet : Instr → Option (Byte × Byte)
  | .send wop wpl | .query wop wpl _ | .wCmd wop wpl => some (wop, wpl)
  | .getemis | .wQemis => some Config.qemisPacket
  | .shutdown | .wStop => some Config.stopPacket
  | .wSetfps8 => some Config.setfps8Packet
  | .wStart => some Config.startPacket
  | .openCh | .close | .read _ | .decode | .norm | .setlo _ | .sethi _ | .rdreg _ | .rdfb _ | .rds _ | .rdg _ => none

end Sys2Proof

namespace Sys2Proof.Machine

/-! ## The receive procedure and the engine's own transition -/

theorem completeReceive_tx {k : RxKind} {s t : State} (h : completeReceive k s = .next t) : t.tx = s.tx := by
  rcases completeReceive_next h with ⟨-, rfl⟩ | ⟨-, b, -, rfl⟩ <;> rfl

theorem startReceive_tx {n : Count} {k : RxKind} {s t : State} (h : startReceive n k s = .next t) : t.tx = s.tx := by
  rcases startReceive_next h with ⟨-, hc⟩ | ⟨-, rfl⟩
  · exact (completeReceive_tx hc :)
  · rfl

theorem storeByte_tx {r : Receive} {b : Byte} {s t : State} (h : storeByte r b s = .next t) : t.tx = s.tx := by
  obtain ⟨-, ⟨-, hc⟩ | ⟨-, rfl⟩⟩ := storeByte_next h
  · exact (completeReceive_tx hc :)
  · rfl

theorem takeItem_tx {r : Receive} {s t : State} (h : takeItem r s = .next t) : t.tx = s.tx := by
  rcases takeItem_next h with ⟨-, rfl⟩ | ⟨b, rest, -, hb⟩ | ⟨rest, -, rfl⟩
  · rfl
  · exact (storeByte_tx hb :)
  · rfl

theorem engineMove_tx {s t : State} (h : engineMove s = .next t) : t.tx = s.tx := by
  rcases engineMove_next h with ⟨-, rfl⟩ | ⟨r, -, hr⟩
  · rfl
  · exact takeItem_tx hr

/-- An engine that holds no packet sends nothing by itself (R96). -/
theorem engineTurn_tx {s t : State} (hheld : s.held = none) (h : (engineTurn s).outcome = .next t) : t.tx = s.tx := by
  rw [engineTurn_empty hheld] at h
  exact engineMove_tx h

@[simp] theorem State.abort_tx (s : State) : s.abort.tx = s.tx := by
  cases hr : s.rxop with
  | none => rw [State.abort_idle s hr]
  | some r => rw [State.abort_waiting s hr, State.raise_tx]

/-! ## What an instruction puts on TX -/

/-- The state `u` reached from `s` has the TX of `s`, or, the channel of `s` not closed, the packet after it. -/
def SendsAtMost (p : Byte × Byte) (s u : State) : Prop :=
  u.tx = s.tx ∨ (s.chstate ≠ .closed ∧ u.tx = s.tx ++ pack p.1 p.2)

theorem sendIfOpen_sendsAtMost (p : Byte × Byte) (s : State) : SendsAtMost p s (s.sendIfOpen p.1 p.2) := by
  unfold SendsAtMost
  rw [State.sendIfOpen_tx]
  split
  · exact .inl rfl
  · exact .inr ⟨‹_›, rfl⟩

/-- A receive under the channel condition: TX is as before where the channel refuses it, and that of the state the
receive starts from on an open one. -/
theorem ifOpened_startReceive_tx {w : Word} {n : Count} {k : RxKind} {s u t : State}
    (h : ifOpened w s (startReceive n k u) = .next t) : t.tx = s.tx ∨ (s.chstate = .opened ∧ t.tx = u.tx) := by
  rcases ifOpened_next h with ⟨-, rfl⟩ | ⟨-, rfl⟩ | ⟨ho, hr⟩
  · exact .inl rfl
  · exact .inl rfl
  · exact .inr ⟨ho, startReceive_tx hr⟩

/-- QUERY and GETEMIS: the packet, then the receive. -/
theorem query_sendsAtMost {w : Word} {n : Count} {k : RxKind} {p : Byte × Byte} {s t : State}
    (h : ifOpened w s (startReceive n k (s.sendPacket p.1 p.2)) = .next t) : SendsAtMost p s t := by
  rcases ifOpened_startReceive_tx h with ht | ⟨ho, ht⟩
  · exact .inl ht
  · exact .inr ⟨by simp [ho], ht⟩

/-- An instruction that has a packet puts nothing else on TX, and that only on a channel that is not closed. -/
theorem exec_sendsAtMost {i : Instr} {p : Byte × Byte} {s t : State} (hp : i.packet = some p)
    (h : exec i s = .next t) : SendsAtMost p s t := by
  cases i with
  | send wop wpl =>
    cases hp
    rcases execSend_next h with ⟨-, rfl⟩ | ⟨hc, rfl⟩
    · exact .inl rfl
    · exact .inr ⟨hc, rfl⟩
  | query wop wpl len => cases hp; exact query_sendsAtMost h
  | getemis => cases hp; exact query_sendsAtMost h
  | shutdown => cases hp; cases h; exact sendIfOpen_sendsAtMost Config.stopPacket s
  | wQemis => cases hp; cases h; exact sendIfOpen_sendsAtMost Config.qemisPacket s
  | wSetfps8 => cases hp; cases h; exact sendIfOpen_sendsAtMost Config.setfps8Packet s
  | wStart => cases hp; cases h; exact sendIfOpen_sendsAtMost Config.startPacket s
  | wStop => cases hp; cases h; exact sendIfOpen_sendsAtMost Config.stopPacket s
  | wCmd wop wpl => cases hp; cases h; exact sendIfOpen_sendsAtMost (wop, wpl) s
  | openCh | close | read | decode | norm | setlo | sethi | rdreg | rdfb | rds | rdg => cases hp

theorem readout_tx {i : Instr} {s t : State}
    (hi : (∃ r, i = .rdreg r) ∨ (∃ a, i = .rdfb a) ∨ (∃ k, i = .rds k) ∨ ∃ k, i = .rdg k)
    (h : exec i s = .next t) : t.tx = s.tx := by
  rcases readout_cases hi h with ⟨x, rfl⟩ | rfl | rfl <;> rfl

/-- An instruction that has no packet leaves TX as it is. -/
theorem exec_tx_of_packet_none {i : Instr} {s t : State} (hp : i.packet = none) (h : exec i s = .next t) :
    t.tx = s.tx := by
  cases i with
  | openCh => rcases execOpen_next h with ⟨-, rfl⟩ | ⟨-, rfl⟩ | ⟨-, offered, -, rfl⟩ <;> rfl
  | close => cases h; rfl
  | read n =>
    rcases execRead_next h with ⟨-, rfl⟩ | ⟨-, hr⟩
    · rfl
    · exact (ifOpened_startReceive_tx hr).elim id And.right
  | decode => rcases execDecode_next h with ⟨-, rfl⟩ | ⟨-, amb, v, -, -, rfl⟩ <;> rfl
  | norm => rcases execNorm_next h with ⟨-, rfl⟩ | ⟨d, -, rfl⟩ <;> rfl
  | setlo lo => rcases execSetlo_next h with ⟨-, rfl⟩ | ⟨d, -, rfl⟩ <;> rfl
  | sethi hi => rcases execSethi_next h with ⟨-, rfl⟩ | ⟨d, -, rfl⟩ <;> rfl
  | rdreg r => exact readout_tx (.inl ⟨r, rfl⟩) h
  | rdfb a => exact readout_tx (.inr (.inl ⟨a, rfl⟩)) h
  | rds k => exact readout_tx (.inr (.inr (.inl ⟨k, rfl⟩))) h
  | rdg k => exact readout_tx (.inr (.inr (.inr ⟨k, rfl⟩))) h
  | send | query | getemis | shutdown | wQemis | wSetfps8 | wStart | wStop | wCmd => cases hp

/-- All an instruction can do to TX: nothing, or, on a channel that is not closed, its own packet. -/
theorem exec_tx {i : Instr} {s t : State} (h : exec i s = .next t) :
    t.tx = s.tx ∨ ∃ p, i.packet = some p ∧ s.chstate ≠ .closed ∧ t.tx = s.tx ++ pack p.1 p.2 := by
  cases hp : i.packet with
  | none => exact .inl (exec_tx_of_packet_none hp h)
  | some p => exact (exec_sendsAtMost hp h).imp_right fun hs => ⟨p, rfl, hs⟩

/-! ## The operation port -/

theorem shapeH0_ok {w : Word} {i j : Instr} (h : shapeH0 w i = .ok j) :
    j = i ∧ aField w = 0 ∧ bField w = 0 ∧ cField w = 0 := by
  unfold shapeH0 at h
  split at h
  · cases h; exact ⟨rfl, ‹_›⟩
  · cases h

theorem shapeHI_ok {w : Word} {inRange : Half → Bool} {e : DecodeError} {i : Half → Instr} {j : Instr}
    (h : shapeHI w inRange e i = .ok j) : j = i (immField w) ∧ aField w = 0 ∧ inRange (immField w) = true := by
  unfold shapeHI at h
  split at h
  · cases h
  · split at h
    · cases h; exact ⟨rfl, Classical.not_not.1 ‹_›, ‹_›⟩
    · cases h

theorem shapeH1_ok {w : Word} {j : Instr} (h : shapeH1 w = .ok j) :
    j = .rdreg (aField w) ∧ bField w = 0 ∧ cField w = 0 ∧ aField w ≤ 11 := by
  unfold shapeH1 at h
  split at h
  · cases h
  · rename_i hz
    obtain ⟨hb, hc⟩ := not_or.1 hz
    split at h
    · cases h; exact ⟨rfl, Classical.not_not.1 hb, Classical.not_not.1 hc, ‹_›⟩
    · cases h

theorem shapeH2_ok {w : Word} {j : Instr} (h : shapeH2 w = .ok j) :
    j = .send (aField w) (bField w) ∧ cField w = 0 := by
  unfold shapeH2 at h
  split at h
  · cases h; exact ⟨rfl, ‹_›⟩
  · cases h

/-- The operation port accepts host operations only, never a wire packet (R93, R104). -/
theorem decodeHost_isHostOp {w : Word} {i : Instr} (h : decodeHost w = .ok i) : i.isHostOp = true := by
  unfold decodeHost at h
  split at h
  -- the shapes of R92, the rows of R93 in order: SEND is the third, QUERY the fourth, RDREG the twelfth
  case h_3 => rw [(shapeH2_ok h).1]; rfl
  case h_4 => cases h; rfl
  case h_12 => rw [(shapeH1_ok h).1]; rfl
  case h_16 => cases h
  case h_1 | h_2 | h_6 | h_7 | h_10 | h_11 => rw [(shapeH0_ok h).1]; rfl
  case h_5 | h_8 | h_9 | h_13 | h_14 | h_15 => rw [(shapeHI_ok h).1]; rfl

/-- The host operations that have a packet. -/
theorem sends_of_isHostOp_of_packet {i : Instr} {p : Byte × Byte} (hop : i.isHostOp = true) (hp : i.packet = some p) :
    i = .shutdown ∨ i = .getemis ∨ (∃ wop wpl, i = .send wop wpl) ∨ ∃ wop wpl len, i = .query wop wpl len := by
  cases i with
  | shutdown => exact .inl rfl
  | getemis => exact .inr (.inl rfl)
  | send wop wpl => exact .inr (.inr (.inl ⟨wop, wpl, rfl⟩))
  | query wop wpl len => exact .inr (.inr (.inr ⟨wop, wpl, len, rfl⟩))
  | wQemis | wSetfps8 | wStart | wStop | wCmd => cases hop
  | openCh | close | read | decode | norm | setlo | sethi | rdreg | rdfb | rds | rdg => cases hp

/-- A step of an engine that holds no packet changes TX only by the instruction it accepts at the port, idle. -/
theorem step_tx {s t : State} (hheld : s.held = none) (h : step s = .next t) :
    t.tx = s.tx ∨ ∃ w i rest, s.sched = .word w :: rest ∧ s.waiting = false ∧ decodeHost w = .ok i ∧
      exec i { s with sched := rest } = .next t := by
  rcases step_next h with ⟨-, hturn⟩ | ⟨rest, -, hturn⟩ | ⟨it, rest, -, rfl⟩ | ⟨rest, -, rfl⟩ | ⟨rest, -, rfl⟩ |
    ⟨w, rest, -, -, hmove⟩ | hword | ⟨w, e, rest, -, -, -, rfl⟩
  · exact .inl (engineTurn_tx hheld hturn)
  · exact .inl (engineTurn_tx (s := { s with sched := rest }) hheld hturn)
  · exact .inl rfl
  · exact .inl (State.abort_tx _)
  · exact .inl rfl
  · exact .inl (engineMove_tx hmove)
  · exact .inr hword
  · exact .inl rfl

theorem State.rxop_of_waiting_false {s : State} (h : s.waiting = false) : s.rxop = none := by
  simpa [State.waiting] using h

/-- Settles O60: by the invariant the engine holds no packet, so `step_tx` leaves only an instruction accepted at the port,
and `exec_tx` says which of those send and in which channel states. -/
theorem txGrowsOnlyInsideAnOperation : Obligations.TxGrowsOnlyInsideAnOperation := by
  intro s t hinv hstep hne
  rcases step_tx hinv.nothingHeld hstep with htx | ⟨w, i, rest, hsched, hidle, hdec, hexec⟩
  · exact absurd htx hne
  rcases exec_tx hexec with htx | ⟨p, hp, hopen, -⟩
  · exact absurd htx hne
  · exact ⟨State.rxop_of_waiting_false hidle, hopen, w, i, rest, hsched, hdec,
      sends_of_isHostOp_of_packet (decodeHost_isHostOp hdec) hp⟩

end Sys2Proof.Machine
end

section
/-! The engine's invariant (`EngineInv`): it holds at reset, each named update of the state keeps it, and so every step
does (10_state.md R30 to R38; 20_memory.md R64; 30_encoding.md R96). -/

namespace Sys2Proof.Machine

/-! ## Reset -/

/-- Settles O50: each value is read off the definition of the state after reset. -/
theorem resetLeavesTheListedValues : Obligations.ResetLeavesTheListedValues :=
  ⟨rfl, rfl, rfl, rfl, rfl, rfl, rfl, rfl, rfl, rfl, fun _ => rfl, rfl, rfl, rfl, rfl, rfl, rfl⟩

/-- Settles O57: nothing is received, decoded or sent, and no fault is recorded. -/
theorem resetMeetsTheInvariant : Obligations.ResetMeetsTheInvariant where
  fbFilled := rfl
  flenBound := Nat.zero_le 1544
  receiving := fun _ hr => nomatch hr
  extrema := fun _ hd => nomatch hd
  gridDecoded := fun hg => nomatch hg
  causeBound := Nat.zero_le 7
  flagZero := BitVec.getLsbD_zero
  causeFlagged := fun hc => absurd rfl hc
  noFaultYet := fun _ => ⟨rfl, rfl⟩
  wholePackets := ⟨[], rfl⟩
  nothingHeld := rfl

/-! ## The fault registers (R36 to R38) -/

theorem EngineFault.code_ne_zero (f : EngineFault) : f.code ≠ 0 := by cases f <;> decide

theorem EngineFault.code_toNat_le (f : EngineFault) : f.code.toNat ≤ 7 := by cases f <;> decide

/-- `setEflag` sets the fault's own bit and keeps the others (R38). -/
theorem setEflag_getLsbD (f : EngineFault) (e : Byte) {n : Nat} (hn : n < 8) :
    (setEflag f e).getLsbD n = (e.getLsbD n || n == f.code.toNat) := by
  have hbit : ((1 : Byte) <<< f.code.toNat).getLsbD n = (n == f.code.toNat) := by
    rw [Bool.eq_iff_iff]
    simp [hn]
    omega
  rw [setEflag, BitVec.getLsbD_or, hbit]

/-! ## The updates that keep the invariant -/

namespace EngineInv

variable {s : State}

theorem withSched (h : EngineInv s) (sched : List Move) : EngineInv { s with sched := sched } := { h with }

theorem withRx (h : EngineInv s) (rx : List RxItem) : EngineInv { s with rx := rx } := { h with }

theorem withEmis (h : EngineInv s) (emis : Option Byte) : EngineInv { s with emis := emis } := { h with }

theorem respond (h : EngineInv s) (r : OpResult) : EngineInv (s.respond r) := { h with }

theorem askOpen (h : EngineInv s) : EngineInv s.askOpen.2 := { h with }

theorem stop (h : EngineInv s) : EngineInv { s with rxop := none } := { h with receiving := fun _ hr => nomatch hr }

/-- An idle engine's channel is free to change (R31). -/
theorem withChstate (h : EngineInv s) (hidle : s.rxop = none) (c : ChState) : EngineInv { s with chstate := c } :=
  { h with receiving := fun r hr => by simp [hidle] at hr }

/-- An idle engine's buffer may be any that is filled below its FLEN (R30). -/
theorem withBuffer (h : EngineInv s) (hidle : s.rxop = none) {fb : Memory} {flen : Count}
    (hfilled : fb.map Prod.fst = List.range flen.toNat) (hle : flen.toNat ≤ 1544) :
    EngineInv { s with fb := fb, flen := flen } :=
  { h with
    fbFilled := hfilled
    flenBound := hle
    receiving := fun r hr => by simp [hidle] at hr }

/-- A new image, or none, beside the frame it belongs to (R35). -/
theorem withGrid (h : EngineInv s) (g : Option (Vector Byte 768)) (hd : s.svalid = true) :
    EngineInv { s with grid := g } :=
  { h with gridDecoded := fun _ => hd }

/-- A new decoded frame, under the image there is (R23, R35). -/
theorem withDecoded (h : EngineInv s) {d : Decoded} (hd : Extrema d.tmin d.tmax d.samples) :
    EngineInv { s with decoded := some d } :=
  { h with
    extrema := fun _ he => Option.some.inj he ▸ hd
    gridDecoded := fun _ => rfl }

theorem clearFrame (h : EngineInv s) : EngineInv { s with decoded := none, grid := none } :=
  { h with
    extrema := fun _ hd => nomatch hd
    gridDecoded := fun hg => nomatch hg }

/-- Fault entry leaves the three fault registers in agreement (R236). -/
theorem raise (h : EngineInv s) (f : EngineFault) (info : Word) : EngineInv (s.raise f info) :=
  { h.stop with
    causeBound := f.code_toNat_le
    flagZero := by
      have hne : f.code.toNat ≠ 0 := fun h0 => f.code_ne_zero (BitVec.eq_of_toNat_eq h0)
      rw [State.raise_eflags, setEflag_getLsbD f s.eflags (by omega), h.flagZero]
      simp [hne.symm]
    causeFlagged := fun _ => by
      have hlt : f.code.toNat < 8 := Nat.lt_succ_of_le f.code_toNat_le
      simp [setEflag_getLsbD f s.eflags hlt]
    noFaultYet := fun h0 => absurd h0 f.code_ne_zero }

theorem sendPacket (h : EngineInv s) (wop wpl : Byte) : EngineInv (s.sendPacket wop wpl) :=
  { h with
    wholePackets := by
      obtain ⟨ps, hps⟩ := h.wholePackets
      exact ⟨ps ++ [(wop, wpl)], by simp [hps]⟩ }

theorem sendIfOpen (h : EngineInv s) (wop wpl : Byte) : EngineInv (s.sendIfOpen wop wpl) := by
  unfold State.sendIfOpen
  split
  · exact h
  · exact h.sendPacket wop wpl

theorem restart (h : EngineInv s) : EngineInv s.restart :=
  { resetMeetsTheInvariant with wholePackets := h.wholePackets }

theorem abort (h : EngineInv s) : EngineInv s.abort := by
  cases hr : s.rxop with
  | none => rwa [State.abort_idle s hr]
  | some r => rw [State.abort_waiting s hr]; exact h.raise _ _

end EngineInv

variable {s t : State}

/-! ## The receive procedure (R137) -/

/-- Completion needs the invariant of the idle engine alone: at the last byte FLEN is RXTARGET. -/
theorem completeReceive_inv {k : RxKind} (h : EngineInv { s with rxop := none })
    (hx : completeReceive k s = .next t) : EngineInv t := by
  rcases completeReceive_next hx with ⟨-, rfl⟩ | ⟨-, b, -, rfl⟩
  · exact h.respond _
  · exact (h.withEmis (some b)).respond _

theorem startReceive_inv {n : Count} {k : RxKind} (h : EngineInv s) (hopen : s.chstate = .opened)
    (hn : n.toNat ≤ 1544) (hk : k = .emis → n = 4) (hx : startReceive n k s = .next t) : EngineInv t := by
  have hempty : EngineInv { s with fb := [], flen := 0, rxop := none } :=
    h.stop.withBuffer rfl rfl (Nat.zero_le 1544)
  rcases startReceive_next hx with ⟨-, hc⟩ | ⟨hne, rfl⟩
  · exact completeReceive_inv hempty hc
  · have hpos : 0 < n.toNat := Nat.pos_of_ne_zero fun h0 => hne (BitVec.eq_of_toNat_eq h0)
    exact { hempty with receiving := fun r hr => by cases hr; exact ⟨hopen, hpos, hn, hk⟩ }

theorem storeByte_inv {r : Receive} {b : Byte} (h : EngineInv s) (hr : s.rxop = some r)
    (hx : storeByte r b s = .next t) : EngineInv t := by
  obtain ⟨hopen, hlt, hle, hk⟩ := h.receiving r hr
  have hflen : (s.flen + 1).toNat = s.flen.toNat + 1 := by bv_omega
  have hstored : EngineInv
      { s with fb := Memory.insert s.flen.toNat b s.fb, flen := s.flen + 1, rxop := none } :=
    h.stop.withBuffer rfl (by rw [hflen]; exact Memory.filled_insert b h.fbFilled) (by omega)
  obtain ⟨-, ⟨-, hc⟩ | ⟨hne, rfl⟩⟩ := storeByte_next hx
  · exact completeReceive_inv hstored hc
  · have hlt' : (s.flen + 1).toNat < r.target.toNat := by bv_omega
    exact { hstored with
      receiving := fun r' hr' => by
        cases hr.symm.trans hr'
        exact ⟨hopen, hlt', hle, hk⟩ }

theorem takeItem_inv {r : Receive} (h : EngineInv s) (hr : s.rxop = some r) (hx : takeItem r s = .next t) :
    EngineInv t := by
  rcases takeItem_next hx with ⟨-, rfl⟩ | ⟨b, rest, -, hb⟩ | ⟨rest, -, rfl⟩
  · exact h
  · exact storeByte_inv (h.withRx rest) hr hb
  · exact ((h.stop.withChstate rfl .failed).withRx rest).raise .shortRead (zext32 s.flen)

theorem engineMove_inv (h : EngineInv s) (hx : engineMove s = .next t) : EngineInv t := by
  rcases engineMove_next hx with ⟨-, rfl⟩ | ⟨r, hr, ht⟩
  · exact h
  · exact takeItem_inv h hr ht

/-- The engine by itself: it holds no packet, so it goes on with its receive. -/
theorem engineTurn_inv (h : EngineInv s) (hx : (engineTurn s).outcome = .next t) : EngineInv t := by
  rw [engineTurn_empty h.nothingHeld] at hx
  exact engineMove_inv h hx

/-! ## The instructions -/

theorem countOf_toNat_of_byte (v : Byte) : (countOf v).toNat = v.toNat := by
  rw [countOf, BitVec.toNat_setWidth, Nat.mod_eq_of_lt (by omega)]

theorem countOf_toNat_of_le {v : Half} (h : v ≤ 1544) : (countOf v).toNat = v.toNat := by
  have hv : v.toNat ≤ 1544 := h
  rw [countOf, BitVec.toNat_setWidth, Nat.mod_eq_of_lt (by omega)]

/-- DECODE leaves the extrema of the samples in TMIN and TMAX (41_decode.md R173). -/
theorem decodedFrame_extrema (amb : BitVec 16) (v : Vector Sample 768) :
    Extrema (decodedFrame amb v).tmin (decodedFrame amb v).tmax (decodedFrame amb v).samples := by
  have hmem : ∀ {x : Sample}, x ∈ v.toList → ∃ i : Fin 768, v[i] = x := fun hx => by
    obtain ⟨i, hi, rfl⟩ := Vector.getElem_of_mem (Vector.mem_toList_iff.1 hx)
    exact ⟨⟨i, hi⟩, rfl⟩
  obtain ⟨hmin, hminMem⟩ := minOf_spec v
  obtain ⟨hmax, hmaxMem⟩ := maxOf_spec v
  refine ⟨fun i => ?_, hmem hminMem, hmem hmaxMem⟩
  have hi : v[i] ∈ v.toList := Vector.mem_toList_iff.2 (Vector.getElem_mem _)
  exact ⟨hmin _ hi, hmax _ hi⟩

/-- A receive under the channel condition, from a state `u` with the channel of `s`. -/
theorem ifOpened_startReceive_inv {w : Word} {n : Count} {k : RxKind} {u : State} (h : EngineInv s)
    (hu : EngineInv u) (hchan : u.chstate = s.chstate) (hn : n.toNat ≤ 1544) (hk : k = .emis → n = 4)
    (hx : ifOpened w s (startReceive n k u) = .next t) : EngineInv t := by
  rcases ifOpened_next hx with ⟨-, rfl⟩ | ⟨-, rfl⟩ | ⟨hopen, hr⟩
  · exact h.raise _ _
  · exact h.raise _ _
  · exact startReceive_inv hu (hchan.trans hopen) hn hk hr

theorem readout_inv {i : Instr} (h : EngineInv s)
    (hi : (∃ r, i = .rdreg r) ∨ (∃ a, i = .rdfb a) ∨ (∃ k, i = .rds k) ∨ ∃ k, i = .rdg k)
    (hx : exec i s = .next t) : EngineInv t := by
  rcases readout_cases hi hx with ⟨x, rfl⟩ | rfl | rfl
  · exact h.respond _
  · exact h.raise _ _
  · exact h.raise _ _

/-- An instruction run by an idle engine keeps the invariant. -/
theorem exec_inv {i : Instr} (h : EngineInv s) (hidle : s.rxop = none) (hx : exec i s = .next t) : EngineInv t := by
  cases i with
  | openCh =>
    rcases execOpen_next hx with ⟨-, rfl⟩ | ⟨-, rfl⟩ | ⟨-, offered, -, rfl⟩
    · exact h.raise _ _
    · exact h.askOpen.raise _ _
    · exact ((h.askOpen.withChstate hidle .opened).withRx offered).respond _
  | close => cases hx; exact (h.withChstate hidle .closed).respond _
  | send wop wpl =>
    rcases execSend_next hx with ⟨-, rfl⟩ | ⟨-, rfl⟩
    · exact h.raise _ _
    · exact (h.sendPacket wop wpl).respond _
  | query wop wpl len =>
    have hn : (countOf len).toNat ≤ 1544 := by rw [countOf_toNat_of_byte]; omega
    exact ifOpened_startReceive_inv h (h.sendPacket wop wpl) rfl hn (k := .plain) nofun hx
  | read n =>
    rcases execRead_next hx with ⟨-, rfl⟩ | ⟨hle, hr⟩
    · exact h.raise _ _
    · have hn : (countOf n).toNat ≤ 1544 := by rw [countOf_toNat_of_le hle]; exact hle
      exact ifOpened_startReceive_inv h h rfl hn (k := .plain) nofun hr
  | decode =>
    rcases execDecode_next hx with ⟨-, rfl⟩ | ⟨-, amb, v, -, -, rfl⟩
    · exact h.clearFrame.raise _ _
    · exact ((h.withDecoded (decodedFrame_extrema amb v)).withGrid none rfl).respond _
  | norm =>
    rcases execNorm_next hx with ⟨-, rfl⟩ | ⟨d, hd, rfl⟩
    · exact h.raise _ _
    · exact (h.withGrid _ (by simp [State.svalid, hd])).respond _
  | setlo lo =>
    rcases execSetlo_next hx with ⟨-, rfl⟩ | ⟨d, hd, rfl⟩
    · exact h.raise _ _
    · exact (h.withDecoded (d := { d with rlo := lo }) (h.extrema d hd)).respond _
  | sethi hi =>
    rcases execSethi_next hx with ⟨-, rfl⟩ | ⟨d, hd, rfl⟩
    · exact h.raise _ _
    · exact (h.withDecoded (d := { d with rhi := hi }) (h.extrema d hd)).respond _
  | getemis => exact ifOpened_startReceive_inv h (h.sendPacket 0x55 0x01) rfl (by decide) (fun _ => rfl) hx
  | shutdown =>
    cases hx
    exact ((h.sendIfOpen 0x35 0x01).withChstate (by simpa using hidle) .closed).respond _
  | rdreg r => exact readout_inv h (.inl ⟨r, rfl⟩) hx
  | rdfb a => exact readout_inv h (.inr (.inl ⟨a, rfl⟩)) hx
  | rds k => exact readout_inv h (.inr (.inr (.inl ⟨k, rfl⟩))) hx
  | rdg k => exact readout_inv h (.inr (.inr (.inr ⟨k, rfl⟩))) hx
  | wQemis | wSetfps8 | wStart | wStop | wCmd => cases hx; exact h.sendIfOpen _ _

/-! ## The step -/

/-- Settles O58: each of the moves `step_next` lists keeps the invariant. -/
theorem everyStepKeepsTheInvariant : Obligations.EveryStepKeepsTheInvariant := by
  intro s t h hstep
  rcases step_next hstep with ⟨-, hturn⟩ | ⟨rest, -, hturn⟩ | ⟨it, rest, -, rfl⟩ | ⟨rest, -, rfl⟩ | ⟨rest, -, rfl⟩ |
    ⟨w, rest, -, -, hmove⟩ | ⟨w, i, rest, -, hidle, -, hexec⟩ | ⟨w, e, rest, -, -, -, rfl⟩
  · exact engineTurn_inv h hturn
  · exact engineTurn_inv (h.withSched rest) hturn
  · exact (h.withSched rest).withRx _
  · exact (h.withSched rest).abort
  · exact (h.withSched rest).restart
  · exact engineMove_inv h hmove
  · exact exec_inv (h.withSched rest) (State.rxop_of_waiting_false hidle) hexec
  · exact (h.withSched rest).raise _ _

end Sys2Proof.Machine
end

section
/-! STATUS (10_state.md R34). -/

namespace Sys2Proof.Machine

/-- Settles O55: the five fields of STATUS are one, two and three single bits above the two of CHSTATE, so only twenty-four
cases are left. -/
theorem statusShowsChannelAndValidBits : Obligations.StatusShowsChannelAndValidBits := by
  intro s
  unfold State.status
  generalize s.svalid = svalid, s.gvalid = gvalid, s.evalid = evalid
  cases s.chstate <;> revert svalid gvalid evalid <;> decide

end Sys2Proof.Machine
end

section
/-! What changes CHSTATE (10_state.md R31), by way of the words of the port and of what the receive procedure writes
(40_transport.md R137). -/

namespace Sys2Proof.Machine

/-! ## Words of the operation port (30_encoding.md R92, R93) -/

theorem assemble_of_shapeH0 {w : Word} {i j : Instr} (h : shapeH0 w i = .ok j) :
    j = i ∧ assemble (opField w) 0 0 0 = w := by
  obtain ⟨hj, ha, hb, hc⟩ := shapeH0_ok h
  have hw := Laws.assemble_fields w
  rw [ha, hb, hc] at hw
  exact ⟨hj, hw⟩

theorem assembleImm_of_shapeHI {w : Word} {inRange : Half → Bool} {e : DecodeError} {i : Half → Instr} {j : Instr}
    (h : shapeHI w inRange e i = .ok j) : j = i (immField w) ∧ assembleImm (opField w) (immField w) = w := by
  obtain ⟨hj, ha, -⟩ := shapeHI_ok h
  exact ⟨hj, Laws.assembleImm_fields w ha⟩

theorem assemble_of_shapeH1 {w : Word} {j : Instr} (h : shapeH1 w = .ok j) :
    j = .rdreg (aField w) ∧ assemble (opField w) (aField w) 0 0 = w := by
  obtain ⟨hj, hb, hc, -⟩ := shapeH1_ok h
  have hw := Laws.assemble_fields w
  rw [hb, hc] at hw
  exact ⟨hj, hw⟩

theorem assemble_of_shapeH2 {w : Word} {j : Instr} (h : shapeH2 w = .ok j) :
    j = .send (aField w) (bField w) ∧ assemble (opField w) (aField w) (bField w) 0 = w := by
  obtain ⟨hj, hc⟩ := shapeH2_ok h
  have hw := Laws.assemble_fields w
  rw [hc] at hw
  exact ⟨hj, hw⟩

/-- A word the port accepts is the word of its instruction: R93's OP value and the fields of the shape say all of it. -/
theorem encode_of_decodeHost {w : Word} {i : Instr} (h : decodeHost w = .ok i) : encode i = w := by
  have hop {k : Nat} (hk : (opField w).toNat = k) : opField w = BitVec.ofNat 8 k := by rw [← hk]; simp
  unfold decodeHost at h
  split at h
  -- the rows of R93 in order: SEND is the third, QUERY the fourth, RDREG the twelfth
  case h_3 hk => obtain ⟨rfl, hw⟩ := assemble_of_shapeH2 h; rw [hop hk] at hw; exact hw
  case h_4 hk => cases h; have hw := Laws.assemble_fields w; rw [hop hk] at hw; exact hw
  case h_12 hk => obtain ⟨rfl, hw⟩ := assemble_of_shapeH1 h; rw [hop hk] at hw; exact hw
  case h_16 => cases h
  case h_1 hk | h_2 hk | h_6 hk | h_7 hk | h_10 hk | h_11 hk =>
    obtain ⟨rfl, hw⟩ := assemble_of_shapeH0 h; rw [hop hk] at hw; exact hw
  case h_5 hk | h_8 hk | h_9 hk | h_13 hk | h_14 hk | h_15 hk =>
    obtain ⟨rfl, hw⟩ := assembleImm_of_shapeHI h; rw [hop hk] at hw; exact hw

/-- A packet of format W is no host operation (R100). -/
theorem decodeWire_isHostOp {w : Word} {i : Instr} (h : decodeWire w = .ok i) : i.isHostOp = false := by
  have hpacket : ∀ wop wpl : Byte, (packetOf wop wpl).isHostOp = false := fun wop wpl => by
    unfold packetOf
    split_ifs <;> rfl
  unfold decodeWire at h
  split_ifs at h
  cases h
  exact hpacket _ _

/-! ## What the receive procedure writes (40_transport.md R137) -/

variable {s t u : State}

/-- The start of a receive writes FB, FLEN and PHASE. At once, that is for n = 0, no GETEMIS completes: FB is empty. -/
theorem startReceive_writes {n : Count} {k : RxKind} (h : startReceive n k s = .next t) :
    t = { s with fb := [], flen := 0, rxop := t.rxop, results := t.results } := by
  rcases startReceive_next h with ⟨-, hc⟩ | ⟨-, rfl⟩
  · rcases completeReceive_next hc with ⟨-, rfl⟩ | ⟨-, b, hb, -⟩
    · rfl
    · cases hb
  · rfl

/-- A receive under the channel condition, a packet perhaps sent before it: a fault, or what its start writes. -/
theorem ifOpened_startReceive_writes {w : Word} {n : Count} {k : RxKind} (hu : u = { s with tx := u.tx })
    (h : ifOpened w s (startReceive n k u) = .next t) :
    (∃ f info, t = s.raise f info) ∨
      t = { s with tx := u.tx, fb := [], flen := 0, rxop := t.rxop, results := t.results } := by
  rcases ifOpened_next h with ⟨-, rfl⟩ | ⟨-, rfl⟩ | ⟨-, hr⟩
  · exact .inl ⟨_, _, rfl⟩
  · exact .inl ⟨_, _, rfl⟩
  · rw [hu] at hr
    exact .inr (startReceive_writes hr)

/-- A byte received writes FB, FLEN and, at the last one, PHASE and EMIS. -/
theorem storeByte_writes {r : Receive} {b : Byte} (h : storeByte r b s = .next t) :
    t = { s with fb := t.fb, flen := t.flen, emis := t.emis, rxop := t.rxop, results := t.results } := by
  obtain ⟨-, ⟨-, hc⟩ | ⟨-, rfl⟩⟩ := storeByte_next h
  · rcases completeReceive_next hc with ⟨-, rfl⟩ | ⟨-, b, -, rfl⟩ <;> rfl
  · rfl

/-- A byte received writes EMIS only where a GETEMIS completes (R138). -/
theorem storeByte_emis {r : Receive} {b : Byte} (h : storeByte r b s = .next t) :
    t.emis = s.emis ∨ (r.kind = .emis ∧ t.rxop = none) := by
  obtain ⟨-, ⟨-, hc⟩ | ⟨-, rfl⟩⟩ := storeByte_next h
  · rcases completeReceive_next hc with ⟨-, rfl⟩ | ⟨hk, b, -, rfl⟩
    · exact .inl rfl
    · exact .inr ⟨hk, rfl⟩
  · exact .inl rfl

/-- An item taken leaves the decoded frame, the image, BAUD, TX, the environment's answers, what is held and the schedule
alone (R43). -/
theorem takeItem_writes {r : Receive} (h : takeItem r s = .next t) :
    t = { s with
      chstate := t.chstate, fb := t.fb, flen := t.flen, emis := t.emis, ecause := t.ecause, einfo := t.einfo,
      eflags := t.eflags, rxop := t.rxop, rx := t.rx, results := t.results } := by
  rcases takeItem_next h with ⟨-, rfl⟩ | ⟨b, rest, -, hb⟩ | ⟨rest, -, rfl⟩
  · rfl
  · rw [storeByte_writes hb]
  · rfl

theorem takeItem_emis {r : Receive} (h : takeItem r s = .next t) :
    t.emis = s.emis ∨ (r.kind = .emis ∧ t.rxop = none) := by
  rcases takeItem_next h with ⟨-, rfl⟩ | ⟨b, rest, -, hb⟩ | ⟨rest, -, rfl⟩
  · exact .inl rfl
  · exact (storeByte_emis hb :)
  · exact .inl rfl

/-- Only an `err` item changes CHSTATE (R31). -/
theorem takeItem_chstate {r : Receive} (h : takeItem r s = .next t) :
    t.chstate = s.chstate ∨ ∃ rest, s.rx = .err :: rest ∧
      t = State.raise .shortRead (zext32 s.flen) { s with rx := rest, chstate := .failed } := by
  rcases takeItem_next h with ⟨-, rfl⟩ | ⟨b, rest, -, hb⟩ | herr
  · exact .inl rfl
  · exact .inl (congrArg State.chstate (storeByte_writes hb) :)
  · exact .inr herr

/-! ## CHSTATE (R31) -/

/-- The transition of R31's table that an `err` item makes. -/
def FailsChannel (s t : State) : Prop :=
  (EngineInv s → s.chstate = .opened) ∧ t.chstate = .failed ∧ s.waiting = true ∧ s.rx.head? = some .err ∧
    t.results.getLast?.map OpResult.code = some 2

theorem engineMove_chstate (h : engineMove s = .next t) : t.chstate = s.chstate ∨ FailsChannel s t := by
  rcases engineMove_next h with ⟨-, rfl⟩ | ⟨r, hr, ht⟩
  · exact .inl rfl
  · refine (takeItem_chstate ht).imp_right fun ⟨rest, hrx, ht⟩ => ?_
    subst ht
    have hopen (hinv : EngineInv s) : s.chstate = .opened := (hinv.receiving r hr).1
    exact ⟨hopen, rfl, by simp [State.waiting, hr], by simp [hrx], by simp [EngineFault.code]⟩

theorem ifOpened_startReceive_chstate {w : Word} {n : Count} {k : RxKind} (hu : u = { s with tx := u.tx })
    (h : ifOpened w s (startReceive n k u) = .next t) : t.chstate = s.chstate := by
  rcases ifOpened_startReceive_writes hu h with ⟨f, info, rfl⟩ | ht
  · rfl
  · exact (congrArg State.chstate ht :)

theorem readout_chstate {i : Instr}
    (hi : (∃ r, i = .rdreg r) ∨ (∃ a, i = .rdfb a) ∨ (∃ k, i = .rds k) ∨ ∃ k, i = .rdg k)
    (h : exec i s = .next t) : t.chstate = s.chstate := by
  rcases readout_cases hi h with ⟨x, rfl⟩ | rfl | rfl <;> rfl

/-- The instructions that change CHSTATE: an OPEN answered available, CLOSE and SHUTDOWN. -/
theorem exec_chstate {i : Instr} (h : exec i s = .next t) :
    t.chstate = s.chstate ∨
    (i = .openCh ∧ s.chstate = .closed ∧ t.chstate = .opened ∧
      ∃ offered, s.opens.head? = some (.available offered)) ∨
    ((i = .close ∨ i = .shutdown) ∧ t.chstate = .closed) := by
  cases i with
  | openCh =>
    rcases execOpen_next h with ⟨-, rfl⟩ | ⟨-, rfl⟩ | ⟨hc, offered, ho, rfl⟩
    · exact .inl rfl
    · exact .inl rfl
    · exact .inr (.inl ⟨rfl, hc, rfl, offered, ho⟩)
  | close => cases h; exact .inr (.inr ⟨.inl rfl, rfl⟩)
  | shutdown => cases h; exact .inr (.inr ⟨.inr rfl, rfl⟩)
  | send wop wpl => rcases execSend_next h with ⟨-, rfl⟩ | ⟨-, rfl⟩ <;> exact .inl rfl
  | query wop wpl len => exact .inl (ifOpened_startReceive_chstate rfl h)
  | getemis => exact .inl (ifOpened_startReceive_chstate rfl h)
  | read n =>
    rcases execRead_next h with ⟨-, rfl⟩ | ⟨-, hr⟩
    · exact .inl rfl
    · exact .inl (ifOpened_startReceive_chstate rfl hr)
  | decode => rcases execDecode_next h with ⟨-, rfl⟩ | ⟨-, amb, v, -, -, rfl⟩ <;> exact .inl rfl
  | norm => rcases execNorm_next h with ⟨-, rfl⟩ | ⟨d, -, rfl⟩ <;> exact .inl rfl
  | setlo lo => rcases execSetlo_next h with ⟨-, rfl⟩ | ⟨d, -, rfl⟩ <;> exact .inl rfl
  | sethi hi => rcases execSethi_next h with ⟨-, rfl⟩ | ⟨d, -, rfl⟩ <;> exact .inl rfl
  | rdreg r => exact .inl (readout_chstate (.inl ⟨r, rfl⟩) h)
  | rdfb a => exact .inl (readout_chstate (.inr (.inl ⟨a, rfl⟩)) h)
  | rds k => exact .inl (readout_chstate (.inr (.inr (.inl ⟨k, rfl⟩))) h)
  | rdg k => exact .inl (readout_chstate (.inr (.inr (.inr ⟨k, rfl⟩))) h)
  | wQemis | wSetfps8 | wStart | wStop | wCmd => cases h; exact .inl (s.sendIfOpen_chstate _ _)

/-- A packet the engine emits by itself leaves CHSTATE alone, and a receive fails the channel on an `err`. -/
theorem engineTurn_chstate (h : (engineTurn s).outcome = .next t) : t.chstate = s.chstate ∨ FailsChannel s t := by
  rcases engineTurn_next h with hmove | ⟨w, i, -, -, hdec, hexec⟩ | ⟨w, e, -, -, -, rfl⟩
  · exact engineMove_chstate hmove
  · have hwire := decodeWire_isHostOp hdec
    rcases exec_chstate hexec with hc | ⟨rfl, -⟩ | ⟨rfl | rfl, -⟩
    · exact .inl hc
    · cases hwire
    · cases hwire
    · cases hwire
  · exact .inl rfl

@[simp] theorem State.abort_chstate (s : State) : s.abort.chstate = s.chstate := by
  cases hr : s.rxop with
  | none => rw [State.abort_idle s hr]
  | some r => rw [State.abort_waiting s hr, State.raise_chstate]

/-- The steps that change CHSTATE. -/
theorem step_chstate (h : step s = .next t) (hne : t.chstate ≠ s.chstate) :
    (s.chstate = .closed ∧ t.chstate = .opened ∧ s.rxop = none ∧ s.sched.head? = some (.word 0x01000000) ∧
      ∃ offered, s.opens.head? = some (.available offered)) ∨
    FailsChannel s t ∨
    (t.chstate = .closed ∧ s.rxop = none ∧
      (s.sched.head? = some (.word 0x02000000) ∨ s.sched.head? = some (.word 0x0B000000))) ∨
    (t.chstate = .closed ∧ s.sched.head? = some .reset) := by
  rcases step_next h with ⟨-, hturn⟩ | ⟨rest, -, hturn⟩ | ⟨it, rest, -, rfl⟩ | ⟨rest, -, rfl⟩ | ⟨rest, hs, rfl⟩ |
    ⟨w, rest, -, -, hmove⟩ | ⟨w, i, rest, hs, hidle, hdec, hexec⟩ | ⟨w, e, rest, -, -, -, rfl⟩
  · exact .inr (.inl ((engineTurn_chstate hturn).resolve_left hne))
  · obtain ⟨hopen, hfailed⟩ := (engineTurn_chstate hturn).resolve_left hne
    exact .inr (.inl ⟨fun hinv => hopen (hinv.withSched rest), hfailed⟩)
  · exact absurd rfl hne
  · exact absurd (State.abort_chstate _) hne
  · exact .inr (.inr (.inr ⟨rfl, by simp [hs]⟩))
  · exact .inr (.inl ((engineMove_chstate hmove).resolve_left hne))
  · have hrx := State.rxop_of_waiting_false hidle
    have hword : s.sched.head? = some (.word (encode i)) := by rw [hs, encode_of_decodeHost hdec]; rfl
    rcases exec_chstate hexec with hc | ⟨rfl, hclosed, hopened, hans⟩ | ⟨rfl | rfl, hclosed⟩
    · exact absurd hc hne
    · exact .inl ⟨hclosed, hopened, hrx, hword, hans⟩
    · exact .inr (.inr (.inl ⟨hclosed, hrx, .inl hword⟩))
    · exact .inr (.inr (.inl ⟨hclosed, hrx, .inr hword⟩))
  · exact absurd rfl hne

theorem ChState.code_ne_three (c : ChState) : c.code ≠ 3 := by cases c <;> decide

/-- Settles O53: `step_chstate` is the completeness of the table, and each row of the table is one evaluation. -/
theorem channelStateChangesAreThoseListed : Obligations.ChannelStateChangesAreThoseListed := by
  refine ⟨⟨rfl, rfl, rfl, ChState.code_ne_three⟩, fun s t h hne => step_chstate h hne, ?_, ?_, ?_, ?_⟩
  · intro s offered rest hc
    constructor
    · intro ho
      exact ⟨_, by simp only [exec, execOpen, State.askOpen, hc, ho]; rfl, rfl⟩
    · intro ho
      refine ⟨s.askOpen.2.raise .channelUnavailable 0, ?_, hc⟩
      simp [exec, execOpen, State.askOpen, hc, ho, fail]
  · intro s r rest hr hrx hs
    refine ⟨State.raise .shortRead (zext32 s.flen) { s with rx := rest, chstate := .failed }, ?_, rfl⟩
    simp [step, fetch, hs, engineTurn_waiting hr, engineMove, hr, takeItem, hrx, fail]
  · exact fun s => ⟨⟨_, rfl, rfl⟩, _, rfl, rfl⟩
  · intro s rest hs
    exact ⟨State.restart { s with sched := rest }, by simp [step, fetch, hs], rfl⟩

end Sys2Proof.Machine
end

section
/-! The write matrix (10_state.md R43): what each instruction leaves unchanged in an idle engine, column by column. Its
columns CHSTATE and TX are `exec_chstate` and `exec_tx`. -/

namespace Sys2Proof.Machine

/-- The columns of R43 for the instruction `i` run from `s` to `t`, but for CHSTATE and TX. -/
structure InstrFrame (i : Instr) (s t : State) : Prop where
  /-- FB, FLEN and PHASE: the three operations that start a receive. -/
  buffer : (t.fb = s.fb ∧ t.flen = s.flen ∧ t.rxop = none) ∨
    (∃ n, i = .read n) ∨ (∃ wop wpl len, i = .query wop wpl len) ∨ i = .getemis
  /-- The decoded frame: DECODE, and SETLO and SETHI for one end of its range. -/
  decoded : t.decoded = s.decoded ∨ i = .decode ∨
    (∃ d v, i = .setlo v ∧ s.decoded = some d ∧ t.decoded = some { d with rlo := v }) ∨
    ∃ d v, i = .sethi v ∧ s.decoded = some d ∧ t.decoded = some { d with rhi := v }
  /-- The image: NORM, and DECODE, which drops it. -/
  grid : t.grid = s.grid ∨ i = .norm ∨ (i = .decode ∧ t.grid = none)
  emis : t.emis = s.emis
  baud : t.baud = s.baud
  held : t.held = s.held
  sched : t.sched = s.sched
  /-- RX and the environment's answers: OPEN. -/
  stream : (t.rx = s.rx ∧ t.opens = s.opens ∧ t.openReqs = s.openReqs) ∨ i = .openCh
  /-- The fault registers: a fault, handed over as the result. -/
  faults : (t.ecause = s.ecause ∧ t.einfo = s.einfo ∧ t.eflags = s.eflags) ∨
    t.results = s.results ++ [⟨t.ecause, t.einfo⟩]

namespace InstrFrame

variable {i : Instr} {s t u : State}

theorem refl (hidle : s.rxop = none) : InstrFrame i s s where
  buffer := .inl ⟨rfl, rfl, hidle⟩
  decoded := .inl rfl
  grid := .inl rfl
  emis := rfl
  baud := rfl
  held := rfl
  sched := rfl
  stream := .inl ⟨rfl, rfl, rfl⟩
  faults := .inl ⟨rfl, rfl, rfl⟩

theorem respond (hidle : s.rxop = none) (r : OpResult) : InstrFrame i s (s.respond r) :=
  { refl hidle with faults := .inl ⟨rfl, rfl, rfl⟩ }

theorem raise (hidle : s.rxop = none) (f : EngineFault) (info : Word) : InstrFrame i s (s.raise f info) :=
  { refl hidle with
    buffer := .inl ⟨rfl, rfl, rfl⟩
    faults := .inr rfl }

theorem sendIfOpen (hidle : s.rxop = none) (wop wpl : Byte) : InstrFrame i s (s.sendIfOpen wop wpl) := by
  unfold State.sendIfOpen
  split
  · exact refl hidle
  · exact { refl hidle with }

/-- READ, QUERY and GETEMIS: a fault, or the buffer, TX and the results are all that their start writes. -/
theorem receive {w : Word} {n : Count} {k : RxKind} (hidle : s.rxop = none)
    (hi : (∃ n, i = .read n) ∨ (∃ wop wpl len, i = .query wop wpl len) ∨ i = .getemis)
    (hu : u = { s with tx := u.tx }) (h : ifOpened w s (startReceive n k u) = .next t) : InstrFrame i s t := by
  rcases ifOpened_startReceive_writes hu h with ⟨f, info, rfl⟩ | ht
  · exact raise hidle f info
  · rw [ht]
    exact { refl hidle with
      buffer := .inr hi
      faults := .inl ⟨rfl, rfl, rfl⟩ }

theorem readout (hidle : s.rxop = none)
    (hi : (∃ r, i = .rdreg r) ∨ (∃ a, i = .rdfb a) ∨ (∃ k, i = .rds k) ∨ ∃ k, i = .rdg k)
    (h : exec i s = .next t) : InstrFrame i s t := by
  rcases readout_cases hi h with ⟨x, rfl⟩ | rfl | rfl
  · exact respond hidle _
  · exact raise hidle _ _
  · exact raise hidle _ _

end InstrFrame

variable {s t : State}

/-- Every instruction keeps to its row. -/
theorem exec_frame {i : Instr} (hidle : s.rxop = none) (h : exec i s = .next t) : InstrFrame i s t := by
  cases i with
  | openCh =>
    rcases execOpen_next h with ⟨-, rfl⟩ | ⟨-, rfl⟩ | ⟨-, offered, -, rfl⟩
    · exact .raise hidle _ _
    · exact { InstrFrame.raise hidle .channelUnavailable 0 with stream := .inr rfl }
    · exact { InstrFrame.respond hidle ⟨0, 0⟩ with stream := .inr rfl }
  | close => cases h; exact { InstrFrame.respond hidle ⟨0, 0⟩ with }
  | send wop wpl =>
    rcases execSend_next h with ⟨-, rfl⟩ | ⟨-, rfl⟩
    · exact .raise hidle _ _
    · exact { InstrFrame.respond hidle ⟨0, 0⟩ with }
  | query wop wpl len => exact .receive hidle (.inr (.inl ⟨wop, wpl, len, rfl⟩)) rfl h
  | getemis => exact .receive hidle (.inr (.inr rfl)) rfl h
  | read n =>
    rcases execRead_next h with ⟨-, rfl⟩ | ⟨-, hr⟩
    · exact .raise hidle _ _
    · exact .receive hidle (.inl ⟨n, rfl⟩) rfl hr
  | decode =>
    rcases execDecode_next h with ⟨-, rfl⟩ | ⟨-, amb, v, -, -, rfl⟩
    · exact { InstrFrame.raise hidle .malformedFrame (zext32 s.flen) with
        decoded := .inr (.inl rfl), grid := .inr (.inr ⟨rfl, rfl⟩) }
    · exact { InstrFrame.respond hidle ⟨0, 0⟩ with
        decoded := .inr (.inl rfl), grid := .inr (.inr ⟨rfl, rfl⟩) }
  | norm =>
    rcases execNorm_next h with ⟨-, rfl⟩ | ⟨d, -, rfl⟩
    · exact .raise hidle _ _
    · exact { InstrFrame.respond hidle ⟨0, 0⟩ with grid := .inr (.inl rfl) }
  | setlo lo =>
    rcases execSetlo_next h with ⟨-, rfl⟩ | ⟨d, hd, rfl⟩
    · exact .raise hidle _ _
    · exact { InstrFrame.respond hidle ⟨0, 0⟩ with decoded := .inr (.inr (.inl ⟨d, lo, rfl, hd, rfl⟩)) }
  | sethi hi =>
    rcases execSethi_next h with ⟨-, rfl⟩ | ⟨d, hd, rfl⟩
    · exact .raise hidle _ _
    · exact { InstrFrame.respond hidle ⟨0, 0⟩ with decoded := .inr (.inr (.inr ⟨d, hi, rfl, hd, rfl⟩)) }
  | shutdown =>
    cases h
    have hsent : InstrFrame .shutdown s (s.sendIfOpen 0x35 0x01) := .sendIfOpen hidle _ _
    exact { hsent with faults := .inl (by simp) }
  | rdreg r => exact .readout hidle (.inl ⟨r, rfl⟩) h
  | rdfb a => exact .readout hidle (.inr (.inl ⟨a, rfl⟩)) h
  | rds k => exact .readout hidle (.inr (.inr (.inl ⟨k, rfl⟩))) h
  | rdg k => exact .readout hidle (.inr (.inr (.inr ⟨k, rfl⟩))) h
  | wQemis | wSetfps8 | wStart | wStop | wCmd => cases h; exact .sendIfOpen hidle _ _

/-- The column CHSTATE. -/
theorem exec_chstate_column {i : Instr} (h : exec i s = .next t) :
    t.chstate = s.chstate ∨ i = .openCh ∨ i = .close ∨ i = .shutdown := by
  rcases exec_chstate h with hc | ⟨hi, -⟩ | ⟨hi, -⟩
  · exact .inl hc
  · exact .inr (.inl hi)
  · exact .inr (.inr hi)

/-- The column TX: the host operations that have a packet, and the packets run by themselves. -/
theorem exec_tx_column {i : Instr} (h : exec i s = .next t) :
    t.tx = s.tx ∨ i = .shutdown ∨ i = .getemis ∨ (∃ wop wpl, i = .send wop wpl) ∨
      (∃ wop wpl len, i = .query wop wpl len) ∨ i.isHostOp = false := by
  rcases exec_tx h with htx | ⟨p, hp, -⟩
  · exact .inl htx
  · cases hop : i.isHostOp with
    | false => simp
    | true =>
      rcases sends_of_isHostOp_of_packet hop hp with hi | hi | hi | hi <;> simp [hi]

/-- A step of a waiting engine with nothing scheduled takes an item. -/
theorem step_waiting {r : Receive} (hr : s.rxop = some r) (hs : s.sched = []) : step s = takeItem r s := by
  simp [step, fetch, hs, engineTurn_waiting hr, engineMove, hr]

/-- Settles O54: `exec_frame` with the columns CHSTATE and TX for the instructions, and for a receive in progress the
fields that `takeItem_writes` does not list. -/
theorem writeMatrix : Obligations.WriteMatrix := by
  constructor
  · intro s t i hidle h
    obtain ⟨hbuffer, hdecoded, hgrid, hemis, hbaud, hheld, hsched, hstream, hfaults⟩ := exec_frame hidle h
    exact ⟨exec_chstate_column h, hbuffer, hdecoded, hgrid, hemis, hbaud, hheld, hsched, exec_tx_column h, hstream,
      hfaults⟩
  · intro s t r hr hs h
    rw [step_waiting hr hs] at h
    have hchstate : t.chstate = s.chstate ∨ t.chstate = .failed := by
      rcases takeItem_chstate h with hc | ⟨rest, -, rfl⟩
      · exact .inl hc
      · exact .inr rfl
    refine ⟨hchstate, takeItem_emis h, ?_⟩
    rw [takeItem_writes h]
    exact ⟨rfl, rfl, rfl, rfl, rfl, rfl, rfl, rfl⟩

end Sys2Proof.Machine
end

section
/-! The moves of the environment (20_memory.md R65). -/

namespace Sys2Proof.Machine

/-- An arrival is settled by `fetch` itself, before the phase, the port or the held packet is looked at. -/
theorem fetch_arrive {s : State} {it : RxItem} {rest : List Move} (hs : s.sched = .arrive it :: rest) :
    fetch s = .moved (.next { s with sched := rest, rx := s.rx ++ [it] }) := by
  simp only [fetch, hs]

/-- Settles O9: by `fetch_arrive` the move is settled without running an instruction, so its outcome is the step's. -/
theorem arrivingItemQueuesAtTheEnd : Obligations.ArrivingItemQueuesAtTheEnd := by
  intro s it rest hs
  rw [step, fetch_arrive hs, Fetched.outcome]

end Sys2Proof.Machine
end

section
/-! The encoder and the two decoders undo each other (30_encoding.md R91 to R100, R104): the shape laws first, then one
law per space, then the word of either space. -/

namespace Sys2Proof.Machine

/-! ## Decoding an encoded instruction (R91 to R93, R98 to R100) -/

theorem shapeH0_assemble (op : Byte) (i : Instr) : shapeH0 (assemble op 0 0 0) i = .ok i := by
  simp [shapeH0]

theorem shapeH1_assemble {r : Byte} (op : Byte) (h : r ≤ 11) : shapeH1 (assemble op r 0 0) = .ok (.rdreg r) := by
  have hr : r ≤ 11#8 := h
  simp [shapeH1, hr]

theorem shapeH2_assemble (op wop wpl : Byte) : shapeH2 (assemble op wop wpl 0) = .ok (.send wop wpl) := by
  simp [shapeH2]

theorem shapeHI_assembleImm {inRange : Half → Bool} {imm : Half} (op : Byte) (e : DecodeError)
    (i : Half → Instr) (h : inRange imm = true) : shapeHI (assembleImm op imm) inRange e i = .ok (i imm) := by
  simp [shapeHI, h]

/-- The port reads the word of a host operation in range as that operation: the OP value selects the row of R93, and the
row's shape reads the operands back. -/
theorem decodeHost_encode {i : Instr} (hop : i.isHostOp = true) (hwf : i.wellFormed = true) :
    decodeHost (encode i) = .ok i := by
  cases i with
  | openCh | close | decode | norm | getemis | shutdown =>
    rw [decodeHost, encode, Laws.opField_assemble]; exact shapeH0_assemble _ _
  | send wop wpl => rw [decodeHost, encode, Laws.opField_assemble]; exact shapeH2_assemble _ wop wpl
  | query wop wpl len => simp [decodeHost, encode]
  | rdreg r => rw [decodeHost, encode, Laws.opField_assemble]; exact shapeH1_assemble _ (of_decide_eq_true hwf)
  | read n | rdfb n | rds n | rdg n =>
    rw [decodeHost, encode, Laws.opField_assembleImm]; exact shapeHI_assembleImm _ _ _ hwf
  | setlo v | sethi v => rw [decodeHost, encode, Laws.opField_assembleImm]; exact shapeHI_assembleImm _ _ _ rfl
  | wQemis | wSetfps8 | wStart | wStop | wCmd => cases hop

/-- The word of a packet decodes, whatever its opcode and payload: header and checksum hold (R96, R97). -/
theorem decodeWire_packetWord (wop wpl : Byte) : decodeWire (packetWord wop wpl) = .ok (packetOf wop wpl) := by
  simp [decodeWire, packetWord]

/-- A pair that is none of the four named ones is the general packet (R99, R100). -/
theorem packetOf_of_not_named {wop wpl : Byte} (h : namedPacket wop wpl = false) :
    packetOf wop wpl = .wCmd wop wpl := by
  simp only [namedPacket, Bool.or_eq_false_iff, decide_eq_false_iff_not] at h
  obtain ⟨⟨⟨hqemis, hsetfps8⟩, hstart⟩, hstop⟩ := h
  rw [packetOf, if_neg hqemis, if_neg hsetfps8, if_neg hstart, if_neg hstop]

/-- The packet decoder reads the word of a well-formed wire packet as that packet. -/
theorem decodeWire_encode {i : Instr} (hop : i.isHostOp = false) (hwf : i.wellFormed = true) :
    decodeWire (encode i) = .ok i := by
  cases i with
  | wQemis | wSetfps8 | wStart | wStop => exact decodeWire_packetWord _ _
  | wCmd wop wpl =>
    rw [encode, decodeWire_packetWord, packetOf_of_not_named (by simpa [Instr.wellFormed] using hwf)]
  | openCh | close | send | query | read | decode | norm | setlo | sethi | getemis | shutdown | rdreg | rdfb | rds
  | rdg => cases hop

/-- The spaces do not meet: 0xA5 is no OP value of R93 (R100). -/
theorem decodeHost_of_header {w : Word} (h : opField w = Config.pktHeader) :
    decodeHost w = .error .reservedOp := by
  rw [decodeHost, h]; rfl

theorem decodeWord_of_decodeHost {w : Word} {i : Instr} (h : decodeHost w = .ok i) : decodeWord w = .ok i := by
  have hop : opField w ≠ Config.pktHeader := fun hw => nomatch (decodeHost_of_header hw).symm.trans h
  rw [decodeWord, if_neg hop, h]

/-- All a packet that decodes can be: header and checksum hold, and its pair is the instruction. -/
theorem decodeWire_ok {w : Word} {i : Instr} (h : decodeWire w = .ok i) :
    i = packetOf (aField w) (bField w) ∧ opField w = Config.pktHeader ∧ cField w = cks (aField w) (bField w) := by
  unfold decodeWire at h
  split_ifs at h with hhd hck
  cases h
  exact ⟨rfl, Classical.not_not.1 hhd, Classical.not_not.1 hck⟩

theorem decodeWord_of_decodeWire {w : Word} {i : Instr} (h : decodeWire w = .ok i) : decodeWord w = .ok i := by
  obtain ⟨-, hhd, -⟩ := decodeWire_ok h
  rw [decodeWord, if_pos hhd, h]

/-- Settles O1: each decoder undoes the encoder on its own space, and `decodeWord` reads as the decoder that accepts. -/
theorem decodeOfEncodeIsTheInstruction : Obligations.DecodeOfEncodeIsTheInstruction := by
  intro i hwf
  cases hop : i.isHostOp with
  | true =>
    have hdec := decodeHost_encode hop hwf
    exact ⟨decodeWord_of_decodeHost hdec, fun _ => hdec, nofun⟩
  | false =>
    have hdec := decodeWire_encode hop hwf
    exact ⟨decodeWord_of_decodeWire hdec, nofun, fun _ => hdec⟩

/-- Settles O4: the twenty decodings are closed, and are evaluated. -/
theorem wordsOfTheOperationTable : Obligations.WordsOfTheOperationTable := by
  unfold Obligations.WordsOfTheOperationTable
  decide

/-! ## Encoding a decoded word (R97, R99, R104) -/

/-- What the port accepts is in range: each row of R93 checks its own operand. -/
theorem wellFormed_of_decodeHost {w : Word} {i : Instr} (h : decodeHost w = .ok i) : i.wellFormed = true := by
  unfold decodeHost at h
  split at h
  -- the rows of R93 in order: SEND is the third, QUERY the fourth, RDREG the twelfth
  case h_3 => rw [(shapeH2_ok h).1]; rfl
  case h_4 => cases h; rfl
  case h_12 =>
    obtain ⟨rfl, -, -, hr⟩ := shapeH1_ok h
    exact decide_eq_true hr
  case h_16 => cases h
  case h_1 | h_2 | h_6 | h_7 | h_10 | h_11 => rw [(shapeH0_ok h).1]; rfl
  case h_8 | h_9 => rw [(shapeHI_ok h).1]; rfl
  case h_5 | h_13 | h_14 | h_15 =>
    obtain ⟨rfl, -, himm⟩ := shapeHI_ok h
    exact himm

/-- The pair of a packet is never written two ways: a named pair is its named instruction. -/
theorem packetOf_spec (wop wpl : Byte) :
    (packetOf wop wpl).wellFormed = true ∧ encode (packetOf wop wpl) = packetWord wop wpl := by
  cases hn : namedPacket wop wpl with
  | false => rw [packetOf_of_not_named hn]; simp [Instr.wellFormed, hn, encode]
  | true =>
    simp only [namedPacket, Bool.or_eq_true, decide_eq_true_eq] at hn
    rcases hn with ((h | h) | h) | h <;> cases h <;> exact ⟨rfl, rfl⟩

/-- A packet that decodes is the well-formed packet of its two bytes, the header and the checksum being determined. -/
theorem wellFormed_encode_of_decodeWire {w : Word} {i : Instr} (h : decodeWire w = .ok i) :
    i.wellFormed = true ∧ encode i = w := by
  obtain ⟨rfl, hhd, hck⟩ := decodeWire_ok h
  obtain ⟨hwf, henc⟩ := packetOf_spec (aField w) (bField w)
  exact ⟨hwf, by rw [henc, packetWord, ← hhd, ← hck, Laws.assemble_fields]⟩

/-- Settles O2: a word that decodes is accepted by one of the two decoders, and each of them loses no bit. -/
theorem encodeOfDecodeIsTheWord : Obligations.EncodeOfDecodeIsTheWord := by
  intro w i h
  unfold decodeWord at h
  split at h
  · exact wellFormed_encode_of_decodeWire h
  · exact ⟨wellFormed_of_decodeHost h, encode_of_decodeHost h⟩

end Sys2Proof.Machine
end

section
/-! Illegal words (30_encoding.md R104; 60_exceptions.md R225, R234): the port rejects exactly the words R104 lists, and
an illegal word or an operand out of range raises IllegalOp and does nothing else. -/

namespace Sys2Proof.Machine

/-! ## Which words of a shape are accepted, on the numbers in the fields (R92) -/

theorem shapeH0_isOk (w : Word) (i : Instr) :
    (∃ j, shapeH0 w i = .ok j) ↔ (aField w).toNat = 0 ∧ (bField w).toNat = 0 ∧ (cField w).toNat = 0 := by
  unfold shapeH0
  split_ifs with hz <;> simpa [← BitVec.toNat_inj] using hz

theorem shapeH1_isOk (w : Word) :
    (∃ j, shapeH1 w = .ok j) ↔ (bField w).toNat = 0 ∧ (cField w).toNat = 0 ∧ (aField w).toNat ≤ 11 := by
  constructor
  · rintro ⟨j, h⟩
    obtain ⟨-, hb, hc, ha⟩ := shapeH1_ok h
    exact ⟨by simp [hb], by simp [hc], ha⟩
  · rintro ⟨hb, hc, hle⟩
    have ha : aField w ≤ 11 := hle
    have hz : ¬ (bField w ≠ 0 ∨ cField w ≠ 0) := by simp [← BitVec.toNat_inj, hb, hc]
    exact ⟨.rdreg (aField w), by rw [shapeH1, if_neg hz, if_pos ha]⟩

theorem shapeH2_isOk (w : Word) : (∃ j, shapeH2 w = .ok j) ↔ (cField w).toNat = 0 := by
  unfold shapeH2
  split_ifs with hz <;> simpa [← BitVec.toNat_inj] using hz

theorem shapeHI_isOk (w : Word) (inRange : Half → Bool) (e : DecodeError) (i : Half → Instr) :
    (∃ j, shapeHI w inRange e i = .ok j) ↔ (aField w).toNat = 0 ∧ inRange (immField w) = true := by
  unfold shapeHI
  split_ifs with hz hr <;> simp_all [← BitVec.toNat_inj]

/-- The port accepts a word exactly when R104 does not list it: one row of R93 at a time, the row's shape against the
clauses of R104 that name its OP value. -/
theorem decodeHost_isOk (w : Word) : (∃ i, decodeHost w = .ok i) ↔ ¬ IllegalWord w := by
  unfold decodeHost
  split
  -- the rows of R93 in order: SEND is the third, QUERY the fourth, RDREG the twelfth, then the reserved OP values
  case h_3 hk => rw [shapeH2_isOk]; simp [IllegalWord, hk]
  case h_4 hk => simp [IllegalWord, hk]
  case h_12 hk => rw [shapeH1_isOk]; simp [IllegalWord, hk, and_assoc]
  case h_16 =>
    have hreserved : (opField w).toNat = 0x00 ∨ 0x10 ≤ (opField w).toNat := by
      simp only [imp_false] at *
      omega
    have hillegal : IllegalWord w := hreserved.imp_right .inl
    simp [hillegal]
  case h_1 hk | h_2 hk | h_6 hk | h_7 hk | h_10 hk | h_11 hk => rw [shapeH0_isOk]; simp [IllegalWord, hk]
  case h_8 hk | h_9 hk => rw [shapeHI_isOk]; simp [IllegalWord, hk]
  case h_5 hk | h_13 hk | h_14 hk | h_15 hk => rw [shapeHI_isOk]; simp [IllegalWord, hk, BitVec.le_def]

/-! ## A word at the port of an idle engine (40_transport.md R130) -/

section

variable {s : State} {w : Word} {rest : List Move} (hidle : s.rxop = none) (hs : s.sched = .word w :: rest)
include hidle hs

theorem step_word_ok {i : Instr} (hd : decodeHost w = .ok i) : step s = exec i { s with sched := rest } := by
  simp [step, fetch, hs, acceptWord, State.waiting, hidle, hd]

theorem step_word_error {e : DecodeError} (hd : decodeHost w = .error e) :
    step s = fail .illegalOp w { s with sched := rest } := by
  simp [step, fetch, hs, acceptWord, State.waiting, hidle, hd]

end

/-- IllegalOp at an idle engine: the three fault registers and the result, and no other field (R225, R236). -/
theorem fail_illegalOp_idle {s : State} (hidle : s.rxop = none) (w : Word) :
    fail .illegalOp w s = .next { s with
      ecause := 5, einfo := w, eflags := s.eflags ||| 0x20, results := s.results ++ [⟨5, w⟩] } := by
  rw [fail, State.raise, ← hidle]; rfl

/-- Settles O3: by `decodeHost_isOk` the clauses of R104 decide whether the port accepts the word, and what it accepts
is the word of a host operation in range. -/
theorem everyWordIsAnOperationOrIllegal : Obligations.EveryWordIsAnOperationOrIllegal := by
  intro s w rest hidle hs
  constructor
  · intro hillegal
    cases hd : decodeHost w with
    | ok i => exact absurd hillegal ((decodeHost_isOk w).1 ⟨i, hd⟩)
    | error e => exact (step_word_error hidle hs hd).trans (fail_illegalOp_idle (s := { s with sched := rest }) hidle w)
  · intro hlegal
    obtain ⟨i, hd⟩ := (decodeHost_isOk w).2 hlegal
    exact ⟨i, decodeHost_isHostOp hd, wellFormed_of_decodeHost hd, encode_of_decodeHost hd,
      step_word_ok hidle hs hd⟩

/-! ## An operand out of range (R93, R234) -/

/-- A number over 11 stands for no register (10_state.md R40). -/
theorem regOf_eq_none {r : Byte} (h : ¬ r ≤ 11) : regOf r = none := by
  have hr : 11 < r.toNat := Nat.lt_of_not_le h
  unfold regOf
  split
  case h_13 => rfl
  all_goals omega

/-- Each ranged operation checks its operand before the channel and the valid bits. -/
theorem exec_of_not_wellFormed {i : Instr} (hop : i.isHostOp = true) (hwf : i.wellFormed = false) (s : State) :
    exec i s = fail .illegalOp (encode i) s := by
  cases i with
  | read n => exact if_neg (of_decide_eq_false hwf)
  | rdreg r => simp only [exec, execRdreg, regOf_eq_none (of_decide_eq_false hwf)]
  | rdfb a => exact if_neg (of_decide_eq_false hwf)
  | rds k | rdg k =>
    have hk : ¬ k ≤ 767 := of_decide_eq_false hwf
    exact dif_neg fun hlt => hk (Nat.le_of_lt_succ hlt)
  | openCh | close | send | query | decode | norm | setlo | sethi | getemis | shutdown => cases hwf
  | wQemis | wSetfps8 | wStart | wStop | wCmd => cases hop

/-- Settles O56: `exec_of_not_wellFormed`, and what IllegalOp is at an idle engine. -/
theorem outOfRangeOperandsRaiseIllegalOp : Obligations.OutOfRangeOperandsRaiseIllegalOp := by
  intro s i hidle hop hwf
  rw [exec_of_not_wellFormed hop hwf, fail_illegalOp_idle hidle]

end Sys2Proof.Machine
end

section
/-! The checksum of a packet (30_encoding.md R97, R101), and what any step puts on TX (20_memory.md R64). -/

namespace Sys2Proof.Machine

theorem byteSum_toNat (b0 b1 b2 : Byte) : (b0 + b1 + b2).toNat = (b0.toNat + b1.toNat + b2.toNat) % 256 := by
  simp [BitVec.toNat_add]

/-- The checksum in numbers (R97). -/
theorem cks_toNat (wop wpl : Byte) : (cks wop wpl).toNat = (0xA5 + wop.toNat + wpl.toNat) % 256 :=
  byteSum_toNat Config.pktHeader wop wpl

/-- Settles O5: `unpack` drops the header, and `packetWellFormed` is the two equations of R101, the second by
`byteSum_toNat`. -/
theorem unpackOfPackIsTheTriple : Obligations.UnpackOfPackIsTheTriple := by
  refine ⟨fun wop wpl => ⟨rfl, by simp [packetWellFormed, pack, cks]⟩, fun b0 b1 b2 b3 => ⟨rfl, ?_⟩⟩
  rw [← byteSum_toNat, BitVec.toNat_inj]
  simp [packetWellFormed]

/-- The state `t` has the TX of `s`, or one packet more. -/
def AppendsAtMostAPacket (s t : State) : Prop := t.tx = s.tx ∨ ∃ wop wpl, t.tx = s.tx ++ pack wop wpl

theorem exec_appendsAtMostAPacket {i : Instr} {s t : State} (h : exec i s = .next t) : AppendsAtMostAPacket s t :=
  (exec_tx h).imp_right fun ⟨p, _, _, htx⟩ => ⟨p.1, p.2, htx⟩

/-- The engine by itself, in any state: a held packet that is run is the one thing it can send (R96). -/
theorem engineTurn_appendsAtMostAPacket {s t : State} (h : (engineTurn s).outcome = .next t) :
    AppendsAtMostAPacket s t := by
  rcases engineTurn_next h with hmove | ⟨w, i, -, -, -, hexec⟩ | ⟨w, e, -, -, -, rfl⟩
  · exact .inl (engineMove_tx hmove)
  · exact (exec_appendsAtMostAPacket hexec :)
  · exact .inl rfl

theorem step_appendsAtMostAPacket {s t : State} (h : step s = .next t) : AppendsAtMostAPacket s t := by
  rcases step_next h with ⟨-, hturn⟩ | ⟨rest, -, hturn⟩ | ⟨it, rest, -, rfl⟩ | ⟨rest, -, rfl⟩ | ⟨rest, -, rfl⟩ |
    ⟨w, rest, -, -, hmove⟩ | ⟨w, i, rest, -, -, -, hexec⟩ | ⟨w, e, rest, -, -, -, rfl⟩
  · exact engineTurn_appendsAtMostAPacket hturn
  · exact (engineTurn_appendsAtMostAPacket hturn :)
  · exact .inl rfl
  · exact .inl (State.abort_tx _)
  · exact .inl rfl
  · exact .inl (engineMove_tx hmove)
  · exact (exec_appendsAtMostAPacket hexec :)
  · exact .inl rfl

/-- Settles O6: what a step appends is a whole packet, whose fourth byte is the checksum by `cks_toNat`. -/
theorem everyPacketSentCarriesItsChecksum : Obligations.EveryPacketSentCarriesItsChecksum := by
  refine ⟨fun wop wpl => ⟨cks_toNat wop wpl, by omega⟩, fun s t hstep => ?_⟩
  exact (step_appendsAtMostAPacket hstep).imp_right fun ⟨wop, wpl, htx⟩ =>
    ⟨wop, wpl, cks wop wpl, htx, cks_toNat wop wpl⟩

end Sys2Proof.Machine
end

section
/-! Progress (93_implementation_defined.md part 1; 60_exceptions.md R236): an engine that meets the invariant always
answers a next state, since the two bytes the model could find missing are there and no byte is stored past FB. -/

namespace Sys2Proof.Machine

/-- The outcome is a next state. -/
def Answers (o : Out) : Prop := ∃ t, o = .next t

variable {s : State}

theorem finish_answers (v : Word) (s : State) : Answers (finish v s) := ⟨_, rfl⟩

theorem fail_answers (f : EngineFault) (info : Word) (s : State) : Answers (fail f info s) := ⟨_, rfl⟩

/-! ## The receive procedure (40_transport.md R137) -/

/-- Only the completion of GETEMIS needs a byte. -/
theorem completeReceive_answers {k : RxKind} (h : k = .emis → (Memory.read 2 s.fb).isSome = true) :
    Answers (completeReceive k s) := by
  cases k with
  | plain => exact finish_answers _ _
  | emis =>
    obtain ⟨b, hb⟩ := Option.isSome_iff_exists.1 (h rfl)
    simp only [completeReceive, hb]
    exact finish_answers _ _

/-- A receive that completes at once is a plain one. -/
theorem startReceive_answers {n : Count} {k : RxKind} (h : k = .emis → n ≠ 0) : Answers (startReceive n k s) := by
  unfold startReceive
  split
  · exact completeReceive_answers fun hk => absurd ‹n = 0› (h hk)
  · exact ⟨_, rfl⟩

theorem ifOpened_answers {w : Word} {body : Out} (h : Answers body) : Answers (ifOpened w s body) := by
  unfold ifOpened
  split
  · exact fail_answers _ _ _
  · exact fail_answers _ _ _
  · exact h

/-- FLEN is below RXTARGET, so the address exists; and at the fourth byte of GETEMIS FB[2] is there. -/
theorem storeByte_answers {r : Receive} {b : Byte} (h : EngineInv s) (hr : s.rxop = some r) :
    Answers (storeByte r b s) := by
  obtain ⟨-, hlt, hle, hk⟩ := h.receiving r hr
  simp only [storeByte, Memory.write_below b s.fb (show s.flen.toNat < 1544 by omega)]
  split
  case isFalse => exact ⟨_, rfl⟩
  case isTrue hlast =>
    refine completeReceive_answers fun hemis => ?_
    have hflen : s.flen.toNat = 3 := by
      have htarget := hlast.trans (hk hemis)
      bv_omega
    exact (Memory.filled_read (Memory.filled_insert b h.fbFilled) 2).2 (by omega)

theorem takeItem_answers {r : Receive} (h : EngineInv s) (hr : s.rxop = some r) : Answers (takeItem r s) := by
  unfold takeItem
  split
  · exact ⟨_, rfl⟩
  · exact storeByte_answers (h.withRx _) hr
  · exact fail_answers _ _ _

theorem engineMove_answers (h : EngineInv s) : Answers (engineMove s) := by
  unfold engineMove
  split
  · exact ⟨_, rfl⟩
  · exact takeItem_answers h ‹_›

theorem engineTurn_answers (h : EngineInv s) : Answers (engineTurn s).outcome := by
  rw [engineTurn_empty h.nothingHeld]
  exact engineMove_answers h

/-! ## The instructions -/

theorem execOpen_answers (s : State) : Answers (execOpen s) := by
  unfold execOpen
  split
  · exact fail_answers _ _ _
  · split
    · exact fail_answers _ _ _
    · exact finish_answers _ _

/-- A frame of 1544 bytes is all there, so its fields are (10_state.md R30). -/
theorem execDecode_answers (h : EngineInv s) : Answers (execDecode s) := by
  unfold execDecode
  split
  case isTrue => exact fail_answers _ _ _
  case isFalse hlen =>
    have hflen : s.flen.toNat = 1544 := congrArg BitVec.toNat (Classical.not_not.1 hlen)
    obtain ⟨hamb, hsamples⟩ := Memory.fields_isSome fun a ha => (Memory.filled_read h.fbFilled a).2 (by omega)
    obtain ⟨amb, hamb⟩ := Option.isSome_iff_exists.1 hamb
    obtain ⟨v, hv⟩ := Option.isSome_iff_exists.1 hsamples
    simp only [Memory.decodeFrame, hamb, hv]
    exact finish_answers _ _

theorem readout_answers (w : Word) (v : Option Word) (s : State) : Answers (readout w v s) := by
  cases v with
  | none => exact fail_answers _ _ _
  | some x => exact finish_answers _ _

/-- No instruction has a case without a result: those with operands, a channel or data to check raise a fault where the
check fails, and the rest ends or goes on to a receive. -/
theorem exec_answers (i : Instr) (h : EngineInv s) : Answers (exec i s) := by
  cases i with
  | openCh => exact execOpen_answers s
  | close | shutdown => exact finish_answers _ _
  | send | norm | setlo | sethi =>
    simp only [exec, execSend, execNorm, execSetlo, execSethi]
    split
    · exact fail_answers _ _ _
    · exact finish_answers _ _
  | query wop wpl len => exact ifOpened_answers (startReceive_answers nofun)
  | getemis => exact ifOpened_answers (startReceive_answers fun _ => by decide)
  | read n =>
    simp only [exec, execRead]
    split
    · exact ifOpened_answers (startReceive_answers nofun)
    · exact fail_answers _ _ _
  | decode => exact execDecode_answers h
  | rdreg | rdfb | rds | rdg =>
    simp only [exec, execRdreg, execRdfb, execRds, execRdg]
    split
    · exact readout_answers _ _ _
    · exact fail_answers _ _ _
  | wQemis | wSetfps8 | wStart | wStop | wCmd => exact ⟨_, rfl⟩

/-! ## The step -/

/-- At the port: the receive goes on, or the word is run in the state `s'` without it, or is illegal (R104). -/
theorem acceptWord_answers {s' : State} (w : Word) (h : EngineInv s) (h' : EngineInv s') :
    Answers (acceptWord w s s').outcome := by
  unfold acceptWord
  split
  · exact engineMove_answers h
  · split
    · exact exec_answers _ h'
    · exact fail_answers _ _ _

/-- Settles O59: the engine's turn and the port answer by the invariant, and the other moves always do. -/
theorem noStepStopsFromTheInvariant : Obligations.NoStepStopsFromTheInvariant := by
  intro s h
  show Answers (step s)
  unfold step fetch
  split
  case h_1 => exact engineTurn_answers h
  case h_2 => exact engineTurn_answers (h.withSched _)
  case h_3 | h_4 | h_5 => exact ⟨_, rfl⟩
  case h_6 => exact acceptWord_answers _ h (h.withSched _)

end Sys2Proof.Machine
end

section
/-! The receive procedure, one item at a time (40_transport.md R137), and the port while it runs (R130). -/

namespace Sys2Proof.Machine

variable {s t : State} {r : Receive}

/-! ## What a byte at the front of RX does -/

/-- A byte that is not the last is stored and counted. -/
theorem storeByte_more {b : Byte} (hlt : s.flen.toNat < 1544) (hne : s.flen + 1 ≠ r.target) :
    storeByte r b s = .next { s with fb := Memory.insert s.flen.toNat b s.fb, flen := s.flen + 1 } := by
  simp only [storeByte, Memory.write_below b s.fb hlt, if_neg hne]

/-- The last byte is stored and counted, and completes the receive. -/
theorem storeByte_last {b : Byte} (hlt : s.flen.toNat < 1544) (hlast : s.flen + 1 = r.target) :
    storeByte r b s =
      completeReceive r.kind { s with fb := Memory.insert s.flen.toNat b s.fb, flen := r.target } := by
  simp only [storeByte, Memory.write_below b s.fb hlt, hlast, if_true]

section

variable {b : Byte} {more : List RxItem} (hr : s.rxop = some r) (hrx : s.rx = .byte b :: more) (hs : s.sched = [])
include hr hrx hs

/-- A byte at the front of RX is removed and stored. -/
theorem step_byte : step s = storeByte r b { s with rx := more } := by
  simp only [step_waiting hr hs, takeItem, hrx]

theorem step_byte_more (hlt : s.flen.toNat < 1544) (hne : s.flen + 1 ≠ r.target) :
    step s = .next { s with rx := more, fb := Memory.insert s.flen.toNat b s.fb, flen := s.flen + 1 } := by
  rw [step_byte hr hrx hs, storeByte_more (s := { s with rx := more }) hlt hne]

theorem step_byte_last (hlt : s.flen.toNat < 1544) (hlast : s.flen + 1 = r.target) :
    step s = completeReceive r.kind
      { s with rx := more, fb := Memory.insert s.flen.toNat b s.fb, flen := r.target } := by
  rw [step_byte hr hrx hs, storeByte_last (s := { s with rx := more }) hlt hlast]

end

/-- A value as the statements write it. -/
theorem ofNat_toNat_eq_zext32 {n : Nat} (v : BitVec n) : BitVec.ofNat 32 v.toNat = zext32 v := BitVec.ofNat_toNat 32 v

theorem completeReceive_plain (s : State) :
    completeReceive .plain s =
      .next { s with rxop := none, results := s.results ++ [⟨0, BitVec.ofNat 32 s.flen.toNat⟩] } := by
  rw [ofNat_toNat_eq_zext32]; rfl

theorem completeReceive_emis {e : Byte} (he : Memory.read 2 s.fb = some e) :
    completeReceive .emis s =
      .next { s with rxop := none, emis := some e, results := s.results ++ [⟨0, BitVec.ofNat 32 e.toNat⟩] } := by
  rw [ofNat_toNat_eq_zext32]; simp only [completeReceive, he]; rfl

/-- Settles O15: the buffer is the one with the byte inserted at FLEN, by the read laws of the frame buffer. -/
theorem receivedByteIsStoredAtFlen : Obligations.ReceivedByteIsStoredAtFlen := by
  intro s r b more hr hrx hs hlt hne
  exact ⟨Memory.insert s.flen.toNat b s.fb, Memory.read_insert_same _ _ _,
    fun a ha => Memory.read_insert_other b ha s.fb, step_byte_more hr hrx hs hlt hne⟩

/-- Settles O16: the step is the completion of the receive, which looks at the byte just stored. -/
theorem lastByteCompletesTheReceive : Obligations.LastByteCompletesTheReceive := by
  intro s r b more hr hrx hs hlt hlast
  refine ⟨Memory.insert s.flen.toNat b s.fb, Memory.read_insert_same _ _ _,
    fun a ha => Memory.read_insert_other b ha s.fb, fun hk => ?_, fun e hk he => ?_⟩
  · rw [step_byte_last hr hrx hs hlt hlast, hk, completeReceive_plain]
  · rw [step_byte_last hr hrx hs hlt hlast, hk, completeReceive_emis he]

/-! ## The port of a waiting engine -/

theorem completeReceive_withSched {k : RxKind} (sched : List Move) (h : completeReceive k s = .next t) :
    completeReceive k { s with sched := sched } = .next { t with sched := sched } := by
  rcases completeReceive_next h with ⟨rfl, rfl⟩ | ⟨rfl, e, he, rfl⟩
  · rfl
  · simp only [completeReceive, he]; rfl

/-- The receive procedure does not look at the schedule. -/
theorem storeByte_withSched {b : Byte} (sched : List Move) (h : storeByte r b s = .next t) :
    storeByte r b { s with sched := sched } = .next { t with sched := sched } := by
  obtain ⟨hlt, ⟨hlast, hc⟩ | ⟨hne, rfl⟩⟩ := storeByte_next h
  · rw [hlast] at hc
    rw [storeByte_last (s := { s with sched := sched }) hlt hlast]
    exact completeReceive_withSched sched hc
  · rw [storeByte_more (s := { s with sched := sched }) hlt hne]

theorem takeItem_withSched (sched : List Move) (h : takeItem r s = .next t) :
    takeItem r { s with sched := sched } = .next { t with sched := sched } := by
  rcases takeItem_next h with ⟨hrx, rfl⟩ | ⟨b, rest, hrx, hb⟩ | ⟨rest, hrx, rfl⟩
  · simp only [takeItem, hrx]
  · simpa only [takeItem, hrx] using storeByte_withSched sched hb
  · simp only [takeItem, hrx]; rfl

/-- A waiting engine leaves the word at the port and takes an item (R130). -/
theorem step_word_waiting {w : Word} {rest : List Move} (hr : s.rxop = some r) (hs : s.sched = .word w :: rest) :
    step s = takeItem r s := by
  simp [step, fetch, hs, acceptWord, State.waiting, engineMove, hr]

/-- Settles O8: with a word at the port or with nothing scheduled the step is `takeItem`, which does not look at the
schedule. -/
theorem waitingEngineTakesNoWord : Obligations.WaitingEngineTakesNoWord := by
  intro s t r w rest hr hs hstep
  rw [step_word_waiting hr hs] at hstep
  have hself : step { s with sched := [] } = .next { t with sched := [] } := by
    rw [step_waiting (s := { s with sched := [] }) hr rfl]
    exact takeItem_withSched [] hstep
  refine ⟨?_, hself, takeItem_tx hstep, ?_, ?_⟩ <;> rw [takeItem_writes hstep]

end Sys2Proof.Machine
end

section
/-! The transport operations (40_transport.md R130 to R146): what each does, channel state by channel state. -/

namespace Sys2Proof.Machine

variable {s : State}

/-! ## The instruction a step runs (R130) -/

/-- An idle engine emits the packet it holds. -/
theorem engineTurn_held {w : Word} {i : Instr} (hidle : s.rxop = none) (hheld : s.held = some w)
    (hd : decodeWire w = .ok i) : engineTurn s = .runs i { s with held := none } := by
  simp [engineTurn, hidle, hheld, emitHeld, hd]

/-- Settles O7: `step_word_ok` for a word at the port, and the engine's own turn for a packet held. -/
theorem stepRunsTheDecodedInstruction : Obligations.StepRunsTheDecodedInstruction := by
  intro s w i rest hidle
  refine ⟨fun hs hd => step_word_ok hidle hs hd, fun hheld hd => ⟨fun hs => ?_, fun hs => ?_⟩⟩
  · simp [step, fetch, hs, engineTurn_held hidle hheld hd]
  · simp [step, fetch, hs, engineTurn_held (s := { s with sched := rest }) hidle hheld hd]

/-! ## OPEN and CLOSE (R131, R132) -/

/-- Fault entry at an idle engine: the three fault registers and the result, and no other field (R236). -/
theorem fail_idle (hidle : s.rxop = none) (f : EngineFault) (info : Word) :
    fail f info s = .next { s with
      ecause := f.code, einfo := info, eflags := setEflag f s.eflags, results := s.results ++ [⟨f.code, info⟩] } := by
  rw [fail, State.raise, ← hidle]

theorem execOpen_available {offered : List RxItem} {rest : List OpenAnswer} (hc : s.chstate = .closed)
    (ho : s.opens = .available offered :: rest) :
    execOpen s = finish 0 { s.askOpen.2 with chstate := .opened, rx := offered } := by
  simp [execOpen, hc, State.askOpen, ho]

theorem execOpen_unavailable (hc : s.chstate = .closed) (ho : s.opens.headD .unavailable = .unavailable) :
    execOpen s = fail .channelUnavailable 0 s.askOpen.2 := by
  simp only [execOpen, hc, State.askOpen, ho]; rfl

theorem execOpen_in_use (hc : s.chstate ≠ .closed) :
    execOpen s = fail .channelUnavailable (zext32 s.chstate.code) s := if_pos hc

/-- Settles O21: one equation of OPEN per answer, and one where the channel is in use. -/
theorem openFollowsTheEnvironment : Obligations.OpenFollowsTheEnvironment := by
  intro s hidle
  have hused (c : ChState) (hc : s.chstate = c) (hne : c ≠ .closed) :
      exec .openCh s = fail .channelUnavailable (zext32 c.code) s := by
    subst hc; exact execOpen_in_use hne
  refine ⟨fun offered rest hc ho => ?_, fun hc ho => ?_, fun hc => ?_, fun hc => ?_⟩
  · rw [exec, execOpen_available hc ho, State.askOpen_state, ho]; rfl
  · have hnone : s.opens.headD .unavailable = .unavailable := by
      rcases ho with ho | ho <;> simp [List.headD_eq_head?_getD, ho]
    rw [exec, execOpen_unavailable hc hnone, fail_idle (s := s.askOpen.2) hidle]; rfl
  · rw [hused .opened hc nofun, fail_idle hidle]; rfl
  · rw [hused .failed hc nofun, fail_idle hidle]; rfl

/-- Settles O22: CLOSE is one record update and one result. -/
theorem closeIsIdempotent : Obligations.CloseIsIdempotent := by
  intro s
  exact ⟨rfl, by simp [exec, execClose, finish, State.respond]⟩

/-! ## SEND and SHUTDOWN (R133, R146) -/

theorem execSend_not_closed (wop wpl : Byte) (hc : s.chstate ≠ .closed) :
    execSend wop wpl s = finish 0 (s.sendPacket wop wpl) := if_neg hc

theorem State.sendIfOpen_not_closed (wop wpl : Byte) (hc : s.chstate ≠ .closed) :
    s.sendIfOpen wop wpl = s.sendPacket wop wpl := if_neg hc

theorem State.sendIfOpen_closed (wop wpl : Byte) (hc : s.chstate = .closed) : s.sendIfOpen wop wpl = s := if_pos hc

/-- Settles O23: SEND on a channel that is not closed is `sendPacket` and a result. -/
theorem sendAppendsItsPacket : Obligations.SendAppendsItsPacket := by
  intro s wop wpl hc
  have hopen : s.chstate ≠ .closed := by rcases hc with hc | hc <;> simp [hc]
  exact execSend_not_closed wop wpl hopen

/-- Settles O26: the packet goes out unless the channel is closed, and closing a closed channel changes nothing. -/
theorem shutdownStopsAndCloses : Obligations.ShutdownStopsAndCloses := by
  intro s
  refine ⟨fun hc => ?_, fun hc => ?_⟩
  · rw [exec, execShutdown, State.sendIfOpen_not_closed _ _ hc]; rfl
  · rw [exec, execShutdown, State.sendIfOpen_closed _ _ hc, ← hc]; rfl

/-! ## The start of a receive (R135 to R138) -/

theorem ifOpened_opened {w : Word} {body : Out} (hc : s.chstate = .opened) : ifOpened w s body = body := by
  simp only [ifOpened, hc]

theorem execQuery_opened (wop wpl len : Byte) (hc : s.chstate = .opened) :
    execQuery wop wpl len s = startReceive (countOf len) .plain (s.sendPacket wop wpl) := ifOpened_opened hc

theorem execGetemis_opened (hc : s.chstate = .opened) :
    execGetemis s = startReceive 4 .emis (s.sendPacket 0x55 0x01) := ifOpened_opened hc

theorem execRead_opened {n : Half} (hc : s.chstate = .opened) (hn : n ≤ 1544) :
    execRead n s = startReceive (countOf n) .plain s := by
  rw [execRead, if_pos hn, ifOpened_opened hc]

/-- No byte is asked for: an idle engine completes at once. -/
theorem startReceive_zero (hidle : s.rxop = none) :
    startReceive 0 .plain s = .next { s with fb := [], flen := 0, results := s.results ++ [⟨0, 0⟩] } := by
  rw [startReceive, if_pos rfl, completeReceive_plain, ← hidle]; rfl

theorem startReceive_wait {n : Count} {k : RxKind} (hn : n ≠ 0) :
    startReceive n k s = .next { s with fb := [], flen := 0, rxop := some ⟨n, k⟩ } := if_neg hn

/-- A count of another width is 0 only for 0. -/
theorem countOf_ne_zero {n : Nat} {v : BitVec n} (hv : (countOf v).toNat = v.toNat) (hn : v ≠ 0) : countOf v ≠ 0 :=
  fun h0 => hn (BitVec.eq_of_toNat_eq (by rw [← hv, h0]; simp))

/-- A count as the statements write it. -/
theorem ofNat_toNat_eq_countOf {n : Nat} (v : BitVec n) : BitVec.ofNat 11 v.toNat = countOf v := BitVec.ofNat_toNat 11 v

/-- Settles O24: READ on an open channel is the start of its receive. -/
theorem readStartsItsReceive : Obligations.ReadStartsItsReceive := by
  intro s n hc hidle hle
  rw [exec, execRead_opened hc hle, ofNat_toNat_eq_countOf]
  refine ⟨?_, fun hn => startReceive_wait (countOf_ne_zero (countOf_toNat_of_le hle) hn)⟩
  rintro rfl
  exact startReceive_zero hidle

/-- Settles O25: QUERY and GETEMIS on an open channel are a packet and the start of their receive. -/
theorem queriesStartTheirReceive : Obligations.QueriesStartTheirReceive := by
  intro s wop wpl len hc hidle
  rw [exec, execQuery_opened wop wpl len hc, ofNat_toNat_eq_countOf]
  refine ⟨?_, fun hn => startReceive_wait (countOf_ne_zero (countOf_toNat_of_byte len) hn), ?_⟩
  · rintro rfl
    exact startReceive_zero (s := s.sendPacket wop wpl) hidle
  · exact (execGetemis_opened hc).trans (startReceive_wait (by decide))

/-! ## The wire commands (R150 to R154) -/

/-- Settles O49: each wire command is `sendIfOpen` of its packet. -/
theorem wireCommandsPutTheirBytesOnTx : Obligations.WireCommandsPutTheirBytesOnTx := by
  intro s
  constructor
  · intro hc
    have hsend (wop wpl : Byte) : (.next (s.sendIfOpen wop wpl) : Out) = .next (s.sendPacket wop wpl) := by
      rw [State.sendIfOpen_not_closed wop wpl hc]
    exact ⟨hsend _ _, hsend _ _, hsend _ _, hsend _ _, hsend⟩
  · intro hc
    have hkeep (wop wpl : Byte) : (.next (s.sendIfOpen wop wpl) : Out) = .next s := by
      rw [State.sendIfOpen_closed wop wpl hc]
    exact ⟨hkeep _ _, hkeep _ _, hkeep _ _, hkeep _ _, hkeep⟩

end Sys2Proof.Machine
end

section
/-! A whole receive (40_transport.md R135 to R138): READ, QUERY and GETEMIS with all their bytes at the front of RX. -/

namespace Sys2Proof.Machine

/-! ## The bytes received, in the buffer -/

/-- The buffer after the bytes have been stored one by one from address `a` upward (20_memory.md R61). -/
def Memory.insertAll (a : Nat) : List Byte → Memory → Memory
  | [], m => m
  | b :: bs, m => insertAll (a + 1) bs (insert a b m)

/-- The addresses from `a` on read as the bytes, and those below and past them as before. -/
theorem Memory.read_insertAll (k a : Nat) (bs : List Byte) (m : Memory) :
    read k (insertAll a bs m) = if k < a then read k m else bs[k - a]?.or (read k m) := by
  induction bs generalizing a m with
  | nil => simp [insertAll]
  | cons b bs ih =>
    rw [insertAll, ih]
    rcases lt_trichotomy k a with hlt | rfl | hgt
    · rw [if_pos (by omega), if_pos hlt, read_insert_other b (by omega)]
    · simp [read_insert_same]
    · rw [if_neg (by omega), if_neg (by omega), read_insert_other b (by omega),
        show k - a = k - (a + 1) + 1 by omega, List.getElem?_cons_succ]

/-- From an empty buffer, the bytes and nothing else. -/
theorem Memory.read_insertAll_zero (k : Nat) (bs : List Byte) : read k (insertAll 0 bs []) = bs[k]? := by
  simp [read_insertAll, read]

/-! ## The steps of a receive -/

/-- The receive takes the bytes it still wants, one per step, and ends as `completeReceive` says of the full buffer. -/
theorem runs_receive {r : Receive} {more : List RxItem} {t : State} (hle : r.target.toNat ≤ 1544) (bs : List Byte)
    (s : State) (hr : s.rxop = some r) (hs : s.sched = []) (hrx : s.rx = bs.map RxItem.byte ++ more) (hne : bs ≠ [])
    (hlen : s.flen.toNat + bs.length = r.target.toNat)
    (hc : completeReceive r.kind
      { s with rx := more, fb := Memory.insertAll s.flen.toNat bs s.fb, flen := r.target } = .next t) :
    Runs bs.length s t := by
  induction bs generalizing s with
  | nil => exact absurd rfl hne
  | cons b bs ih =>
    have hlen' : s.flen.toNat + (bs.length + 1) = r.target.toNat := hlen
    have hlt : s.flen.toNat < 1544 := by omega
    have hflen : (s.flen + 1).toNat = s.flen.toNat + 1 := by bv_omega
    cases bs with
    | nil =>
      have hlast : s.flen + 1 = r.target := BitVec.eq_of_toNat_eq (hflen.trans hlen')
      exact ⟨t, (step_byte_last hr hrx hs hlt hlast).trans hc, rfl⟩
    | cons b' bs =>
      have hmore : s.flen + 1 ≠ r.target := fun h => by
        have := congrArg BitVec.toNat h
        simp only [List.length_cons] at hlen'
        omega
      refine ⟨_, step_byte_more hr hrx hs hlt hmore, ih _ hr hs rfl (by simp) ?_ ?_⟩
      · simp only [hflen]; omega
      · simpa only [hflen, Memory.insertAll] using hc

/-- A plain receive from its start: nothing is sent or taken at once, and the bytes are collected in as many steps. -/
theorem startReceive_plain_collects {u : State} {n : Count} {bs : List Byte} {more : List RxItem}
    (hidle : u.rxop = none) (hs : u.sched = []) (hle : n.toNat ≤ 1544) (hlen : bs.length = n.toNat)
    (hrx : u.rx = bs.map RxItem.byte ++ more) :
    ∃ t, startReceive n .plain u = .next t ∧ t.tx = u.tx ∧ t.rx = u.rx ∧ Runs n.toNat t { u with
      rx := more, fb := Memory.insertAll 0 bs [], flen := n,
      results := u.results ++ [⟨0, BitVec.ofNat 32 n.toNat⟩] } := by
  by_cases hn : n = 0
  · subst hn
    obtain rfl : bs = [] := List.eq_nil_of_length_eq_zero hlen
    obtain rfl : u.rx = more := hrx
    exact ⟨_, startReceive_zero hidle, rfl, rfl, rfl⟩
  · have hne : bs ≠ [] := fun h => hn (BitVec.eq_of_toNat_eq (by rw [← hlen, h]; rfl))
    refine ⟨_, startReceive_wait hn, rfl, rfl, ?_⟩
    rw [← hlen]
    refine runs_receive (r := ⟨n, .plain⟩) hle bs _ rfl hs hrx hne (by simpa using hlen) ?_
    rw [completeReceive_plain, hlen, ← hidle]; rfl

/-- Settles O18: READ is a plain receive from its start. -/
theorem readCollectsExactlyItsBytes : Obligations.ReadCollectsExactlyItsBytes := by
  intro s n bs more hc hidle hs hle hlen hrx
  have hcount : (countOf n).toNat = n.toNat := countOf_toNat_of_le hle
  obtain ⟨t, ht, -, -, hruns⟩ :=
    startReceive_plain_collects (n := countOf n) hidle hs (by omega) (by omega) hrx
  rw [hcount] at hruns
  rw [ofNat_toNat_eq_countOf]
  exact ⟨t, _, (execRead_opened hc hle).trans ht, fun k => Memory.read_insertAll_zero k bs, hruns⟩

/-- Settles O19: QUERY is a plain receive from its start, after its packet. -/
theorem querySendsThenCollectsItsResponse : Obligations.QuerySendsThenCollectsItsResponse := by
  intro s wop wpl len bs more hc hidle hs hlen hrx
  have hcount : (countOf len).toNat = len.toNat := countOf_toNat_of_byte len
  obtain ⟨t, ht, htx, htrx, hruns⟩ := startReceive_plain_collects (u := s.sendPacket wop wpl) (n := countOf len)
    hidle hs (by omega) (by omega) hrx
  rw [hcount] at hruns
  rw [ofNat_toNat_eq_countOf]
  exact ⟨t, _, (execQuery_opened wop wpl len hc).trans ht, htx, htrx, fun k => Memory.read_insertAll_zero k bs, hruns⟩

/-- Settles O20: GETEMIS is a receive of four bytes after its packet, whose completion latches the third. -/
theorem getemisLatchesTheThirdByte : Obligations.GetemisLatchesTheThirdByte := by
  intro s b0 b1 b2 b3 more hc hidle hs hrx
  refine ⟨_, Memory.insertAll 0 [b0, b1, b2, b3] [], (execGetemis_opened hc).trans (startReceive_wait (by decide)), rfl,
    fun k => Memory.read_insertAll_zero k _, ?_⟩
  refine runs_receive (r := ⟨4, .emis⟩) (by decide) [b0, b1, b2, b3] _ rfl hs hrx (by simp) rfl ?_
  exact (completeReceive_emis (Memory.read_insertAll_zero 2 _)).trans (by rw [← hidle]; rfl)

end Sys2Proof.Machine
end

section
/-! The frame parser (41_decode.md R170 to R177): DECODE as a function of FB, the extrema it leaves, and the reduction
that finds them. -/

namespace Sys2Proof.Machine

/-! ## The reduction (R173, R174) -/

theorem smin_assoc (a b c : Sample) : smin (smin a b) c = smin a (smin b c) :=
  BitVec.eq_of_toInt_eq (by simp only [smin_toInt, min_assoc])

theorem smin_comm (a b : Sample) : smin a b = smin b a :=
  BitVec.eq_of_toInt_eq (by simp only [smin_toInt, min_comm])

theorem smax_assoc (a b c : Sample) : smax (smax a b) c = smax a (smax b c) :=
  BitVec.eq_of_toInt_eq (by simp only [smax_toInt, max_assoc])

theorem smax_comm (a b : Sample) : smax a b = smax b a :=
  BitVec.eq_of_toInt_eq (by simp only [smax_toInt, max_comm])

/-- The greatest s16 value, from which the minimum is folded, is a unit of `smin`. -/
theorem smin_greatest (a : Sample) : smin a 0x7FFF = a := if_pos (toInt_bounds a).2

/-- The least s16 value, from which the maximum is folded, is a unit of `smax`. -/
theorem smax_least (a : Sample) : smax a 0x8000 = a := by
  refine BitVec.eq_of_toInt_eq ?_
  rw [smax_toInt]
  exact max_eq_left (toInt_bounds a).1

section
variable {op : Sample → Sample → Sample} (hassoc : ∀ a b c, op (op a b) c = op a (op b c))
include hassoc

/-- From a right unit, two parts can be reduced apart and joined by one operation. -/
theorem foldl_append_of_assoc {e : Sample} (hunit : ∀ a, op a e = a) (front back : List Sample) :
    (front ++ back).foldl op e = op (front.foldl op e) (back.foldl op e) := by
  have : Std.Associative op := ⟨hassoc⟩
  rw [List.foldl_append, ← List.foldl_assoc (op := op), hunit]

theorem foldl_perm_of_assoc_comm (hcomm : ∀ a b, op a b = op b a) {l l' : List Sample} (h : l.Perm l') (e : Sample) :
    l.foldl op e = l'.foldl op e := by
  have : Std.Associative op := ⟨hassoc⟩
  have : Std.Commutative op := ⟨hcomm⟩
  exact h.foldl_eq e

end

/-- Settles O34: `smin` and `smax` are associative and commutative, and the value each fold starts from is a unit. -/
theorem reductionOrderDoesNotMatter : Obligations.ReductionOrderDoesNotMatter := by
  refine ⟨fun v front back hv => ?_, fun v u hperm => ?_⟩
  · rw [minOf, maxOf, hv]
    exact ⟨foldl_append_of_assoc smin_assoc smin_greatest front back,
      foldl_append_of_assoc smax_assoc smax_least front back⟩
  · exact ⟨foldl_perm_of_assoc_comm smin_assoc smin_comm hperm _, foldl_perm_of_assoc_comm smax_assoc smax_comm hperm _⟩

/-! ## The extrema of the samples (R175) -/

namespace Extrema

variable {lo hi : Sample} {v : Vector Sample 768}

theorem le (h : Extrema lo hi v) : lo.toInt ≤ hi.toInt := by
  obtain ⟨hbetween, -, -⟩ := h
  obtain ⟨hlo, hhi⟩ := hbetween 0
  exact hlo.trans hhi

/-- The extrema are equal exactly when all samples are: each sample lies between them, and both are samples. -/
theorem eq_iff (h : Extrema lo hi v) : lo = hi ↔ ∀ i j : Fin 768, v[i] = v[j] := by
  obtain ⟨hbetween, ⟨j, hj⟩, k, hk⟩ := h
  constructor
  · rintro rfl
    have hall (i : Fin 768) : v[i] = lo := BitVec.eq_of_toInt_eq (le_antisymm (hbetween i).2 (hbetween i).1)
    exact fun i i' => (hall i).trans (hall i').symm
  · intro hall
    rw [← hj, ← hk, hall j k]

end Extrema

/-! ## The fields of the buffer (R171, R172) -/

namespace Memory

variable {m m' : Memory}

theorem ambient_of_read {lo hi : Byte} (hlo : read 1540 m = some lo) (hhi : read 1541 m = some hi) :
    m.ambient = some (u16le lo hi) := by
  simp only [ambient, hlo, hhi]

theorem sampleAt_of_read {i : Nat} {lo hi : Byte} (hlo : read (4 + 2 * i) m = some lo)
    (hhi : read (5 + 2 * i) m = some hi) : m.sampleAt i = some (s16le lo hi) := by
  simp only [sampleAt, hlo, hhi]

theorem samples_eq_some {v : Vector Sample 768} :
    m.samples = some v ↔ ∀ (i : Nat) (h : i < 768), m.sampleAt i = some v[i] := collect_eq_some

theorem decodeFrame_of_fields {amb : BitVec 16} {v : Vector Sample 768} (hamb : m.ambient = some amb)
    (hv : m.samples = some v) : m.decodeFrame = some (decodedFrame amb v) := by
  simp only [decodeFrame, hamb, hv]

/-- The decoded frame depends on the bytes 4 to 1541 alone (R176). -/
theorem decodeFrame_congr (h : ∀ a, 4 ≤ a → a ≤ 1541 → read a m = read a m') : m.decodeFrame = m'.decodeFrame := by
  have hamb : m.ambient = m'.ambient := by
    rw [ambient, h 1540 (by omega) (by omega), h 1541 (by omega) (by omega), ambient]
  have hat (i : Nat) (hi : i < 768) : m.sampleAt i = m'.sampleAt i := by
    rw [sampleAt, h (4 + 2 * i) (by omega) (by omega), h (5 + 2 * i) (by omega) (by omega), sampleAt]
  have hsamples : m.samples = m'.samples := Option.ext fun v => by
    rw [samples_eq_some, samples_eq_some]
    exact forall₂_congr fun i hi => by rw [hat i hi]
  rw [decodeFrame, hamb, hsamples, decodeFrame]

end Memory

/-! ## DECODE (R170) -/

variable {s t : State}

theorem execDecode_malformed (hlen : s.flen ≠ 1544) :
    execDecode s = fail .malformedFrame (zext32 s.flen) { s with decoded := none, grid := none } := if_pos hlen

theorem execDecode_full {d : Decoded} (hlen : s.flen = 1544) (hd : s.fb.decodeFrame = some d) :
    execDecode s = finish 0 { s with decoded := some d, grid := none } := by
  rw [execDecode, if_neg (not_not.2 hlen), hd]

/-- What a DECODE that completes has written: the decoded frame of the buffer, and of some samples. -/
theorem execDecode_decoded (hlen : s.flen.toNat = 1544) (h : execDecode s = .next t) :
    t.decoded = s.fb.decodeFrame ∧ ∃ amb v, t.decoded = some (decodedFrame amb v) := by
  rcases execDecode_next h with ⟨hne, -⟩ | ⟨-, amb, v, hamb, hv, rfl⟩
  · exact absurd (BitVec.eq_of_toNat_eq hlen) hne
  · exact ⟨(Memory.decodeFrame_of_fields hamb hv).symm, amb, v, rfl⟩

/-- Settles O30: the one test of DECODE fails, and the rest is fault entry at an idle engine. -/
theorem decodeRejectsAnyOtherLength : Obligations.DecodeRejectsAnyOtherLength := by
  intro s hidle hlen
  rw [ofNat_toNat_eq_zext32, exec, execDecode_malformed fun h => hlen (congrArg BitVec.toNat h)]
  exact fail_idle (s := { s with decoded := none, grid := none }) hidle .malformedFrame (zext32 s.flen)

/-- Settles O31: a full buffer has all its fields, each the two bytes the statement names, and `decodedFrame_extrema` is
the rest. -/
theorem decodeParsesTheFrame : Obligations.DecodeParsesTheFrame := by
  intro s hlen hfull
  obtain ⟨hambSome, hsamplesSome⟩ := Memory.fields_isSome hfull
  obtain ⟨amb, hamb⟩ := Option.isSome_iff_exists.1 hambSome
  obtain ⟨v, hv⟩ := Option.isSome_iff_exists.1 hsamplesSome
  refine ⟨_, execDecode_full (BitVec.eq_of_toNat_eq hlen) (Memory.decodeFrame_of_fields hamb hv),
    fun lo hi hlo hhi => ?_, fun i lo hi hlo hhi => ?_, decodedFrame_extrema amb v, rfl, rfl⟩
  · have hval : amb = u16le lo hi := Option.some.inj (hamb.symm.trans (Memory.ambient_of_read hlo hhi))
    exact (congrArg BitVec.toNat hval).trans (u16le_toNat lo hi)
  · have hval : v[i] = s16le lo hi :=
      Option.some.inj ((Memory.samples_eq_some.1 hv i i.isLt).symm.trans (Memory.sampleAt_of_read hlo hhi))
    exact (congrArg BitVec.toInt hval).trans (s16le_toInt lo hi)

/-- Settles O32: both engines hold the decoded frame of their buffers, which `Memory.decodeFrame_congr` makes one. -/
theorem decodeDependsOnTheFieldsAlone : Obligations.DecodeDependsOnTheFieldsAlone := by
  intro s s' t t' hlen hlen' hagree ht ht'
  obtain ⟨hd, amb, v, hsome⟩ := execDecode_decoded hlen ht
  obtain ⟨hd', -⟩ := execDecode_decoded hlen' ht'
  exact ⟨by rw [hd, hd', Memory.decodeFrame_congr hagree], by rw [State.svalid, hsome]; rfl⟩

/-- Settles O33: what `Extrema` says of the decoded frame, and s16 values differ by less than 65536. -/
theorem completedDecodeHasTrueExtrema : Obligations.CompletedDecodeHasTrueExtrema := by
  intro s t hlen ht
  obtain ⟨-, amb, v, hd⟩ := execDecode_decoded hlen ht
  have hext := decodedFrame_extrema amb v
  have hle := hext.le
  have hiff := hext.eq_iff
  obtain ⟨hbetween, ⟨j, hj⟩, k, hk⟩ := hext
  obtain ⟨hmin, -⟩ := toInt_bounds (decodedFrame amb v).tmin
  obtain ⟨-, hmax⟩ := toInt_bounds (decodedFrame amb v).tmax
  exact ⟨_, hd, hbetween, ⟨j, k, hj, hk⟩, hiff, rfl, rfl, by omega, by omega⟩

end Sys2Proof.Machine
end

section
/-! The quantiser (42_normalize.md R190 to R200): the rounded quotient and its order, the byte it gives, and the three
operations that use it. -/

namespace Sys2Proof.Machine

/-! ## The rounded quotient (R193, R195) -/

section
variable {n m d : Int}

theorem quotient_of_pos (hd : 0 < d) (n : Int) : quotient n d = (510 * n + d) / (2 * d) := if_neg hd.not_gt

/-- A negative divisor is made positive, with its numerator (R195). -/
theorem quotient_of_neg (hd : d < 0) (n : Int) : quotient n d = quotient (-n) (-d) := by
  rw [quotient_of_pos (neg_pos.2 hd), quotient, if_pos hd]

theorem quotient_mono (hd : 0 < d) (h : n ≤ m) : quotient n d ≤ quotient m d := by
  rw [quotient_of_pos hd, quotient_of_pos hd]
  exact Int.ediv_le_ediv (by omega) (by omega)

theorem quotient_anti (hd : d < 0) (h : n ≤ m) : quotient m d ≤ quotient n d := by
  rw [quotient_of_neg hd, quotient_of_neg hd]
  exact quotient_mono (neg_pos.2 hd) (neg_le_neg h)

theorem quotient_eq_floor_of_pos (hd : 0 < d) (n : Int) : quotient n d = ⌊(n : ℚ) * 255 / d + 1 / 2⌋ := by
  have hval : (n : ℚ) * 255 / d + 1 / 2 = ((510 * n + d : Int) : ℚ) / ((2 * d : Int) : ℚ) := by
    have : (d : ℚ) ≠ 0 := Int.cast_ne_zero.2 hd.ne'
    push_cast
    field_simp
    ring
  rw [quotient_of_pos hd, hval, Int.floor_div_cast_of_nonneg (by omega), Int.floor_intCast]

/-- The integer form of R195 is the rational form of R193, rounded to nearest with ties upward. -/
theorem quotient_eq_floor (hd : d ≠ 0) (n : Int) : quotient n d = ⌊(n : ℚ) * 255 / d + 1 / 2⌋ := by
  rcases hd.lt_or_gt with hneg | hpos
  · rw [quotient_of_neg hneg, quotient_eq_floor_of_pos (neg_pos.2 hneg), Int.cast_neg, Int.cast_neg, neg_mul,
      neg_div_neg_eq]
  · exact quotient_eq_floor_of_pos hpos n

/-- The spec's `floor_div` (00_scope.md R12, R195). -/
theorem fdiv_eq_quotient (hd : 0 < d) (n : Int) : Int.fdiv (510 * n + d) (2 * d) = quotient n d := by
  rw [quotient_of_pos hd, Int.fdiv_eq_ediv_of_nonneg _ (by omega)]

/-- The lower end of a range needs no rounding (R200 (b)). -/
theorem quotient_zero (hd : d ≠ 0) : quotient 0 d = 0 := by
  rw [quotient_eq_floor hd]
  norm_num

/-- The upper end of a range needs no rounding (R200 (b)). -/
theorem quotient_self (hd : d ≠ 0) : quotient d d = 255 := by
  rw [quotient_eq_floor hd, mul_div_cancel_left₀ _ (Int.cast_ne_zero.2 hd)]
  norm_num

/-- Inside a proper range the quotient lies between those of the two ends. -/
theorem quotient_between (hd : 0 < d) (h0 : 0 ≤ n) (hn : n ≤ d) : 0 ≤ quotient n d ∧ quotient n d ≤ 255 := by
  constructor
  · exact (quotient_zero hd.ne').ge.trans (quotient_mono hd h0)
  · exact (quotient_mono hd hn).trans (quotient_self hd.ne').le

/-- A divisor of at least 1 does not make 255 n greater. -/
theorem quotient_width_of_pos (hd : 0 < d) (h : -65535 ≤ n ∧ n ≤ 65535) :
    -16711425 ≤ quotient n d ∧ quotient n d ≤ 16711425 := by
  rw [quotient_of_pos hd]
  exact ⟨Int.le_ediv_of_mul_le (by omega) (by omega),
    Int.le_of_lt_add_one (Int.ediv_lt_of_lt_mul (by omega) (by omega))⟩

/-- The width of the quotient (R196). -/
theorem quotient_width (hd : d ≠ 0) (h : -65535 ≤ n ∧ n ≤ 65535) :
    -16711425 ≤ quotient n d ∧ quotient n d ≤ 16711425 := by
  rcases hd.lt_or_gt with hneg | hpos
  · rw [quotient_of_neg hneg]
    exact quotient_width_of_pos (neg_pos.2 hneg) (by omega)
  · exact quotient_width_of_pos hpos h

end

/-! ## The byte of a sample (R195, R197, R198) -/

section
variable {v lo hi : Sample}

/-- The zero range (R197). -/
theorem quantise_zero_range (v lo : Sample) : quantise v lo lo = 128 := if_pos (sub_self lo.toInt)

theorem range_ne_zero (h : hi ≠ lo) : hi.toInt - lo.toInt ≠ 0 := sub_ne_zero.2 fun he => h (BitVec.eq_of_toInt_eq he)

theorem quantise_of_ne (h : hi ≠ lo) (v : Sample) :
    quantise v lo hi = BitVec.ofInt 8 (clamp (quotient (v.toInt - lo.toInt) (hi.toInt - lo.toInt)) 0 255) :=
  if_neg (range_ne_zero h)

/-- The clamped quotient fits a byte, so nothing wraps (R198). -/
theorem quantise_toNat (h : hi ≠ lo) (v : Sample) :
    ((quantise v lo hi).toNat : Int) = max 0 (min 255 (quotient (v.toInt - lo.toInt) (hi.toInt - lo.toInt))) := by
  rw [quantise_of_ne h, BitVec.toNat_ofInt, clamp]
  omega

/-- The byte in the rational form of R193. -/
theorem quantise_toNat_eq_floor (h : hi ≠ lo) (v : Sample) :
    ((quantise v lo hi).toNat : Int) = max 0 (min 255
      ⌊((v.toInt : ℚ) - (lo.toInt : ℚ)) * 255 / ((hi.toInt : ℚ) - (lo.toInt : ℚ)) + 1 / 2⌋) := by
  rw [quantise_toNat h, quotient_eq_floor (range_ne_zero h), Int.cast_sub, Int.cast_sub]

theorem quantise_eq_zero (h : hi ≠ lo) (hq : quotient (v.toInt - lo.toInt) (hi.toInt - lo.toInt) ≤ 0) :
    quantise v lo hi = 0 := by
  rw [quantise_of_ne h, clamp, min_eq_right (hq.trans (by decide)), max_eq_left hq]
  rfl

theorem quantise_eq_255 (h : hi ≠ lo) (hq : 255 ≤ quotient (v.toInt - lo.toInt) (hi.toInt - lo.toInt)) :
    quantise v lo hi = 255 := by
  rw [quantise_of_ne h, clamp, min_eq_left hq]
  rfl

/-- The lower end of a range, proper or reversed, gives 0 (R200 (b)). -/
theorem quantise_lower_end (h : hi ≠ lo) : quantise lo lo hi = 0 := by
  refine quantise_eq_zero h ?_
  rw [sub_self, quotient_zero (range_ne_zero h)]

/-- The upper end of a range, proper or reversed, gives 255 (R200 (b)). -/
theorem quantise_upper_end (h : hi ≠ lo) : quantise hi lo hi = 255 :=
  quantise_eq_255 h (quotient_self (range_ne_zero h)).ge

/-- The order of two quotients is that of the bytes, since the clamp is monotone. -/
theorem quantise_le_of_quotient_le {a b : Sample} (h : hi ≠ lo)
    (hq : quotient (a.toInt - lo.toInt) (hi.toInt - lo.toInt) ≤ quotient (b.toInt - lo.toInt) (hi.toInt - lo.toInt)) :
    (quantise a lo hi).toNat ≤ (quantise b lo hi).toNat := by
  have ha := quantise_toNat h a
  have hb := quantise_toNat h b
  omega

theorem ne_of_toInt_lt (h : lo.toInt < hi.toInt) : hi ≠ lo := fun he => h.ne' (congrArg BitVec.toInt he)

/-- The hundreds of `deg` cancel, one above and one below the line (00_scope.md R13). -/
theorem deg_ratio (x y z : Int) :
    (deg x - deg y) * 255 / (deg z - deg y) = ((x : ℚ) - y) * 255 / ((z : ℚ) - y) := by
  simp only [deg]
  rw [← sub_div, ← sub_div, div_mul_eq_mul_div, div_div_div_cancel_right₀ (by norm_num)]

end

/-- Settles O37: the rational form is `quotient_eq_floor`, and the integer form is the quotient itself, by the sign of
the range. -/
theorem quantiserIsTheExactRoundedQuotient : Obligations.QuantiserIsTheExactRoundedQuotient := by
  intro v lo hi
  refine ⟨fun h => h ▸ quantise_zero_range v hi, fun h => ⟨quantise_toNat_eq_floor h v, ?_⟩⟩
  rcases (range_ne_zero h).lt_or_gt with hneg | hpos
  · refine ⟨_, _, neg_pos.2 hneg, .inr ⟨rfl, rfl⟩, ?_⟩
    rw [fdiv_eq_quotient (neg_pos.2 hneg), ← quotient_of_neg hneg, quantise_toNat h]
  · refine ⟨_, _, hpos, .inl ⟨rfl, rfl⟩, ?_⟩
    rw [fdiv_eq_quotient hpos, quantise_toNat h]

/-- Settles O38: in degrees the ratio is the same rational, by `deg_ratio`. -/
theorem quantiserAgreesInDegrees : Obligations.QuantiserAgreesInDegrees := by
  intro v lo hi h
  rw [deg_ratio, quantise_toNat_eq_floor h]

/-- Settles O39: the quotient is exact at the ends, monotone for a positive divisor and antitone for a negative one. -/
theorem quantiserIsMonotoneWithExactEnds : Obligations.QuantiserIsMonotoneWithExactEnds := by
  refine fun lo hi => ⟨fun h => ⟨quantise_lower_end h.symm, quantise_upper_end h.symm⟩, fun a b hlt hab => ?_,
    fun a b hlt hab => ?_⟩
  · exact quantise_le_of_quotient_le (ne_of_toInt_lt hlt) (quotient_mono (by omega) (by omega))
  · exact quantise_le_of_quotient_le (ne_of_toInt_lt hlt).symm (quotient_anti (by omega) (by omega))

/-- Settles O40: outside the range the quotient is past that of the nearer end. -/
theorem clampSaturatesOutsideTheRange : Obligations.ClampSaturatesOutsideTheRange := by
  intro v lo hi hlt
  have hne := ne_of_toInt_lt hlt
  have hd := range_ne_zero hne
  refine ⟨fun hv => quantise_eq_zero hne ?_, fun hv => quantise_eq_255 hne ?_⟩
  · exact (quotient_mono (by omega) (by omega)).trans (quotient_zero hd).le
  · exact (quotient_self hd).ge.trans (quotient_mono (by omega) (by omega))

/-- Settles O42: N and D are differences of s16 values, and the rest follows from their bounds. -/
theorem quantiserIntermediatesFitTheirWidths : Obligations.QuantiserIntermediatesFitTheirWidths := by
  intro v lo hi n d
  obtain ⟨hv0, hv1⟩ := toInt_bounds v
  obtain ⟨hlo0, hlo1⟩ := toInt_bounds lo
  obtain ⟨hhi0, hhi1⟩ := toInt_bounds hi
  have hn : -65535 ≤ n ∧ n ≤ 65535 := by omega
  have hd : -65535 ≤ d ∧ d ≤ 65535 := by omega
  refine ⟨hn, hd, by omega, by omega, by omega, by omega, fun h => quotient_width h hn, fun h0 h1 hlt => ?_⟩
  exact quotient_between (sub_pos.2 hlt) (sub_nonneg.2 h0) (sub_le_sub_right h1 _)

/-! ## SETLO, SETHI and NORM (R190 to R192) -/

variable {s : State} {d : Decoded}

theorem execSetlo_decoded (h : s.decoded = some d) (lo : Sample) :
    execSetlo lo s = finish 0 { s with decoded := some { d with rlo := lo } } := by
  rw [execSetlo, h]

theorem execSethi_decoded (h : s.decoded = some d) (hi : Sample) :
    execSethi hi s = finish 0 { s with decoded := some { d with rhi := hi } } := by
  rw [execSethi, h]

theorem execNorm_decoded (h : s.decoded = some d) :
    execNorm s = finish 0 { s with grid := some (lanes (fun v => quantise v d.rlo d.rhi) d.samples) } := by
  rw [execNorm, h]

/-- Settles O35: each operation is one record update and one result. -/
theorem setRangeWritesOneEnd : Obligations.SetRangeWritesOneEnd :=
  fun _ _ v h => ⟨execSetlo_decoded h v, execSethi_decoded h v⟩

/-- Settles O36: the image is the quantiser in every lane. -/
theorem normQuantisesEveryCell : Obligations.NormQuantisesEveryCell :=
  fun _ _ h => ⟨_, execNorm_decoded h, fun i => lanes_getElem _ _ i i.isLt⟩

/-- Settles O41: every cell is a byte of the zero range. -/
theorem zeroRangeGivesTheConstant : Obligations.ZeroRangeGivesTheConstant := by
  intro s d h hrange
  obtain ⟨g, hnorm, hcells⟩ := normQuantisesEveryCell s d h
  refine ⟨_, g, hnorm, rfl, fun i => ?_, rfl, rfl, rfl, rfl, rfl⟩
  rw [hcells, hrange, quantise_zero_range]

/-- Settles O43: the range DECODE leaves is that of the extrema of the samples, so every sample lies inside it, and its
ends are the two samples named. -/
theorem freshFrameUsesTheFullScale : Obligations.FreshFrameUsesTheFullScale := by
  intro s t u hlen hdecode hnorm
  obtain ⟨d, hd, hbetween, -, -, hrlo, hrhi, -, -⟩ := completedDecodeHasTrueExtrema s t hlen hdecode
  obtain ⟨g, hnorm', hcells⟩ := normQuantisesEveryCell t d hd
  obtain rfl := Host.Outcome.next.inj (hnorm'.symm.trans hnorm)
  rw [hrlo, hrhi] at hcells
  refine ⟨d, g, hd, rfl, fun hne i => ?_, fun heq i => ?_⟩
  · obtain ⟨hmin, hmax⟩ := hbetween i
    have hlt : d.tmin.toInt < d.tmax.toInt := (hmin.trans hmax).lt_of_ne fun he => hne (BitVec.eq_of_toInt_eq he)
    rw [hcells, hrlo, hrhi]
    refine ⟨fun hi => ?_, fun hi => ?_, quotient_between (by omega) (by omega) (by omega)⟩
    · rw [hi, quantise_lower_end hne.symm]
    · rw [hi, quantise_upper_end hne.symm]
  · rw [hcells, heq, quantise_zero_range]

end Sys2Proof.Machine
end

section
/-! The readout operations (43_readout.md R210 to R214): a readout in range ends with the value it reads, or with
NoValidData where there is none; one out of range is IllegalOp. -/

namespace Sys2Proof.Machine

variable {s : State}

/-! ## The two ends of a readout in range (R226) -/

theorem readout_some (w x : Word) : readout w (some x) s = .next { s with results := s.results ++ [⟨0, x⟩] } := rfl

/-- NoValidData at an idle engine: the three fault registers and the result, and no other field (R236). -/
theorem readout_none_idle (hidle : s.rxop = none) (w : Word) :
    readout w none s = .next { s with
      ecause := 6, einfo := w, eflags := s.eflags ||| 0x40, results := s.results ++ [⟨6, w⟩] } :=
  fail_idle hidle .noValidData w

/-! ## What each operation reads in range (R210 to R213) -/

/-- The numbers to 11 stand for registers (10_state.md R40). -/
theorem exists_regOf_eq_some {r : Byte} (h : r ≤ 11) : ∃ reg, regOf r = some reg := by
  have hr : r.toNat ≤ 11 := h
  unfold regOf
  split
  case h_13 => simp only [imp_false] at *; omega
  all_goals exact ⟨_, rfl⟩

theorem execRdreg_register {r : Byte} {reg : Reg} (hreg : regOf r = some reg) (s : State) :
    execRdreg r s = readout (encode (.rdreg r)) (readReg reg s) s := by
  rw [execRdreg, hreg]

theorem execRdfb_inRange {a : Half} (ha : a.toNat ≤ 1543) (s : State) :
    execRdfb a s = readout (encode (.rdfb a)) (readBuffer a.toNat s) s := if_pos ha

theorem execRds_inRange {k : Half} (hk : k.toNat < 768) (s : State) :
    execRds k s = readout (encode (.rds k)) (readSample ⟨k.toNat, hk⟩ s) s := dif_pos hk

theorem execRdg_inRange {k : Half} (hk : k.toNat < 768) (s : State) :
    execRdg k s = readout (encode (.rdg k)) (readCell ⟨k.toNat, hk⟩ s) s := dif_pos hk

/-! ## A readout changes nothing (R214) -/

/-- What a readout in range reads does not depend on the results handed over so far. -/
theorem exec_readout_inRange {i : Instr}
    (hi : (∃ r, i = .rdreg r) ∨ (∃ a, i = .rdfb a) ∨ (∃ k, i = .rds k) ∨ ∃ k, i = .rdg k)
    (hwf : i.wellFormed = true) (s : State) :
    ∃ v, ∀ rs, exec i { s with results := rs } = readout (encode i) v { s with results := rs } := by
  rcases hi with ⟨r, rfl⟩ | ⟨a, rfl⟩ | ⟨k, rfl⟩ | ⟨k, rfl⟩
  · obtain ⟨reg, hreg⟩ := exists_regOf_eq_some (of_decide_eq_true hwf)
    exact ⟨readReg reg s, fun _ => execRdreg_register hreg _⟩
  · exact ⟨readBuffer a.toNat s, fun _ => execRdfb_inRange (of_decide_eq_true hwf) _⟩
  · have hk : k.toNat < 768 := Nat.lt_succ_of_le (of_decide_eq_true hwf : k ≤ 767)
    exact ⟨readSample ⟨k.toNat, hk⟩ s, fun _ => execRds_inRange hk _⟩
  · have hk : k.toNat < 768 := Nat.lt_succ_of_le (of_decide_eq_true hwf : k ≤ 767)
    exact ⟨readCell ⟨k.toNat, hk⟩ s, fun _ => execRdg_inRange hk _⟩

/-- Settles O47: out of range it is IllegalOp. In range the first run and the repeat read the same thing: a value, which
ends both, or none, which is NoValidData. -/
theorem readoutChangesNothing : Obligations.ReadoutChangesNothing := by
  intro s i hidle hi
  cases hwf : i.wellFormed with
  | false =>
    have hop : i.isHostOp = true := by rcases hi with ⟨_, rfl⟩ | ⟨_, rfl⟩ | ⟨_, rfl⟩ | ⟨_, rfl⟩ <;> rfl
    exact .inr ⟨.illegalOp, .inl rfl, outOfRangeOperandsRaiseIllegalOp s i hidle hop hwf⟩
  | true =>
    obtain ⟨v, hrun⟩ := exec_readout_inRange hi hwf s
    have hfirst : exec i s = readout (encode i) v s := hrun s.results
    cases v with
    | none => exact .inr ⟨.noValidData, .inr rfl, hfirst.trans (readout_none_idle hidle _)⟩
    | some x =>
      refine .inl ⟨x, hfirst, ?_⟩
      rw [hrun, readout_some, List.append_assoc, List.singleton_append]

/-! ## RDREG (R210) -/

theorem exec_rdreg_value {r : Byte} {reg : Reg} {x : Word} (hreg : regOf r = some reg) (hx : readReg reg s = some x) :
    exec (.rdreg r) s = .next { s with results := s.results ++ [⟨0, x⟩] } := by
  rw [exec, execRdreg_register hreg, hx, readout_some]

theorem exec_rdreg_noData {r : Byte} {reg : Reg} (hidle : s.rxop = none) (hreg : regOf r = some reg)
    (hx : readReg reg s = none) :
    exec (.rdreg r) s = .next { s with
      ecause := 6, einfo := encode (.rdreg r), eflags := s.eflags ||| 0x40,
      results := s.results ++ [⟨6, encode (.rdreg r)⟩] } := by
  rw [exec, execRdreg_register hreg, hx, readout_none_idle hidle]

/-- Settles O44: the six registers that always have a value, then those of the decoded frame, EMIS, and the numbers that
stand for no register. -/
theorem rdregReturnsEachRegister : Obligations.RdregReturnsEachRegister := by
  intro s hidle
  simp only [ofNat_toNat_eq_zext32]
  refine ⟨⟨?_, ?_, ?_, ?_, ?_, ?_⟩, fun d hd => ⟨?_, ?_, ?_, ?_, ?_⟩, fun hd => ⟨?_, ?_, ?_, ?_, ?_⟩, fun e he => ?_,
    fun he => ?_, fun r hr => ?_⟩
  iterate 6 exact exec_rdreg_value rfl rfl
  iterate 5 exact exec_rdreg_value rfl (congrArg (Option.map _) hd)
  iterate 5 exact exec_rdreg_noData hidle rfl (congrArg (Option.map _) hd)
  · exact exec_rdreg_value rfl (congrArg (Option.map _) he)
  · exact exec_rdreg_noData hidle rfl (congrArg (Option.map _) he)
  · exact outOfRangeOperandsRaiseIllegalOp s (.rdreg r) hidle rfl (decide_eq_false (Nat.not_le.2 hr))

/-! ## RDFB (R211) -/

theorem readBuffer_below {a : Nat} {b : Byte} (hlt : a < s.flen.toNat) (hb : Memory.read a s.fb = some b) :
    readBuffer a s = some (zext32 b) := by
  rw [readBuffer, if_pos hlt, hb, Option.map_some]

theorem readBuffer_beyond {a : Nat} (hle : s.flen.toNat ≤ a) : readBuffer a s = none := if_neg (Nat.not_lt.2 hle)

/-- Settles O45: the two cases of `readBuffer`, and an address out of range. -/
theorem rdfbReturnsTheByteBelowFlen : Obligations.RdfbReturnsTheByteBelowFlen := by
  intro s a hidle
  refine ⟨fun b ha hlt hb => ?_, fun ha hle => ?_, fun ha => ?_⟩
  · rw [exec, execRdfb_inRange ha, readBuffer_below hlt hb, readout_some, ofNat_toNat_eq_zext32]
  · rw [exec, execRdfb_inRange ha, readBuffer_beyond hle, readout_none_idle hidle]
  · exact outOfRangeOperandsRaiseIllegalOp s (.rdfb a) hidle rfl (decide_eq_false (Nat.not_le.2 ha))

/-! ## RDS and RDG (R212, R213) -/

theorem readSample_decoded {d : Decoded} (hd : s.decoded = some d) (k : Fin 768) :
    readSample k s = some (sext32 d.samples[k.val]) := by
  rw [readSample, hd]; rfl

theorem readCell_grid {g : Vector Byte 768} (hg : s.grid = some g) (k : Fin 768) :
    readCell k s = some (zext32 g[k.val]) := by
  rw [readCell, hg]; rfl

/-- Settles O46: in range the element is there, and an index past 767 is out of range whatever data there is. -/
theorem rdsAndRdgReturnTheElement : Obligations.RdsAndRdgReturnTheElement := by
  intro s k hidle
  refine ⟨fun d hk hd => ?_, fun g hk hg => ?_, fun hk => ?_⟩
  · rw [exec, execRds_inRange hk, readSample_decoded hd, readout_some]; rfl
  · rw [exec, execRdg_inRange hk, readCell_grid hg, readout_some, ofNat_toNat_eq_zext32]
  · have hrange : ¬ k ≤ 767 := Nat.not_le.2 hk
    exact ⟨outOfRangeOperandsRaiseIllegalOp s (.rds k) hidle rfl (decide_eq_false hrange),
      outOfRangeOperandsRaiseIllegalOp s (.rdg k) hidle rfl (decide_eq_false hrange)⟩

end Sys2Proof.Machine
end

section
/-! The abort of a receive (60_exceptions.md R230 to R235): its two cases, and the two orders of an abort and an item at
the front of RX. -/

namespace Sys2Proof.Machine

variable {s t : State} {r : Receive} {rest : List Move} {more : List RxItem}

/-! ## The step of an abort (R232, R233) -/

theorem step_abort (hs : s.sched = .abort :: rest) : step s = .next (State.abort { s with sched := rest }) := by
  simp only [step, fetch, hs, Fetched.outcome_moved]

theorem step_abort_idle (hidle : s.rxop = none) (hs : s.sched = .abort :: rest) :
    step s = .next { s with sched := rest } := by
  rw [step_abort hs, State.abort_idle { s with sched := rest } hidle]

theorem step_abort_waiting (hr : s.rxop = some r) (hs : s.sched = .abort :: rest) :
    step s = .next (State.raise .aborted (zext32 s.flen) { s with sched := rest }) := by
  rw [step_abort hs, State.abort_waiting { s with sched := rest } hr]

/-- Settles O10: the abort of a receive is fault entry with FLEN. -/
theorem abortEndsTheReceive : Obligations.AbortEndsTheReceive := by
  intro s r rest hr hs
  rw [step_abort_waiting hr hs, ofNat_toNat_eq_zext32]
  rfl

/-- Settles O11: an idle engine only uses up the move. -/
theorem abortAtAnIdleEngineDoesNothing : Obligations.AbortAtAnIdleEngineDoesNothing :=
  fun _ _ hidle hs => step_abort_idle hidle hs

/-! ## The item at the front of RX (40_transport.md R137) -/

theorem takeItem_empty (hrx : s.rx = []) : takeItem r s = .next s := by
  simp only [takeItem, hrx]

theorem takeItem_byte {b : Byte} (hrx : s.rx = .byte b :: more) :
    takeItem r s = storeByte r b { s with rx := more } := by
  simp only [takeItem, hrx]

theorem takeItem_err (hrx : s.rx = .err :: more) :
    takeItem r s = .next (State.raise .shortRead (zext32 s.flen) { s with rx := more, chstate := .failed }) := by
  simp only [takeItem, hrx, fail]

/-- Completion makes the engine idle and hands over one result of code 0; RX, FLEN and the schedule stay. -/
theorem completeReceive_ends {k : RxKind} (h : completeReceive k s = .next t) :
    t.rxop = none ∧ t.rx = s.rx ∧ t.flen = s.flen ∧ t.sched = s.sched ∧ ∃ v, t.results = s.results ++ [⟨0, v⟩] := by
  rcases completeReceive_next h with ⟨-, rfl⟩ | ⟨-, b, -, rfl⟩ <;> exact ⟨rfl, rfl, rfl, rfl, _, rfl⟩

theorem engineMove_waiting (hr : s.rxop = some r) : engineMove s = takeItem r s := by
  simp only [engineMove, hr]

theorem step_run (hs : s.sched = .run :: rest) : step s = (engineTurn { s with sched := rest }).outcome := by
  simp only [step, fetch, hs]

/-- Told to go on, a waiting engine takes an item. -/
theorem step_run_waiting (hr : s.rxop = some r) (hs : s.sched = .run :: rest) :
    step s = takeItem r { s with sched := rest } := by
  have hr' : State.rxop { s with sched := rest } = some r := hr
  rw [step_run hs, engineTurn_waiting hr', Fetched.outcome_moved, engineMove_waiting hr']

/-! ## The item first, then the abort (R235) -/

/-- A receive in progress has room for the next byte. -/
theorem EngineInv.flen_lt (hinv : EngineInv s) (hr : s.rxop = some r) : s.flen.toNat < 1544 := by
  obtain ⟨-, hlt, hle, -⟩ := hinv.receiving r hr
  omega

section

variable (hr : s.rxop = some r) (hs : s.sched = .run :: .abort :: rest)
include hr hs

/-- After an `err` the abort finds the engine idle and the channel failed. -/
theorem err_then_abort (hrx : s.rx = .err :: more) :
    ∃ t, step s = .next t ∧ step t = .next { t with sched := rest } ∧ t.rxop = none ∧ t.rx = more ∧
      t.chstate = .failed ∧ t.flen = s.flen ∧ t.results = s.results ++ [⟨2, zext32 s.flen⟩] :=
  ⟨_, (step_run_waiting hr hs).trans (takeItem_err (s := { s with sched := .abort :: rest }) hrx),
    step_abort_idle rfl rfl, rfl, rfl, rfl, rfl, rfl⟩

variable {b : Byte} (hinv : EngineInv s) (hrx : s.rx = .byte b :: more)
include hinv hrx

/-- After the last byte the abort finds the engine idle and the operation completed. -/
theorem last_byte_then_abort (hlast : s.flen + 1 = r.target) :
    ∃ t, step s = .next t ∧ step t = .next { t with sched := rest } ∧ t.rxop = none ∧ t.rx = more ∧
      t.flen = s.flen + 1 ∧ ∃ v, t.results = s.results ++ [⟨0, v⟩] := by
  obtain ⟨t, ht⟩ := takeItem_answers (hinv.withSched (.abort :: rest)) hr
  have hc := ht
  rw [takeItem_byte (s := { s with sched := .abort :: rest }) hrx,
    storeByte_last (s := { s with sched := .abort :: rest, rx := more }) (hinv.flen_lt hr) hlast] at hc
  obtain ⟨hidle, htrx, hflen, hsched, hresults⟩ := completeReceive_ends hc
  exact ⟨t, (step_run_waiting hr hs).trans ht, step_abort_idle hidle hsched, hidle, htrx, hflen.trans hlast.symm,
    hresults⟩

/-- After a byte that is not the last the abort ends the receive, with one byte more. -/
theorem byte_then_abort (hmore : s.flen + 1 ≠ r.target) :
    ∃ t u, step s = .next t ∧ step t = .next u ∧ u.rxop = none ∧ u.rx = more ∧ u.flen = s.flen + 1 ∧
      u.results = s.results ++ [⟨7, zext32 (s.flen + 1)⟩] := by
  have hstep := step_run_waiting hr hs
  rw [takeItem_byte (s := { s with sched := .abort :: rest }) hrx,
    storeByte_more (s := { s with sched := .abort :: rest, rx := more }) (hinv.flen_lt hr) hmore] at hstep
  exact ⟨_, _, hstep, step_abort_waiting hr rfl, rfl, rfl, rfl, rfl⟩

end

/-- Settles O12: the abort first is `step_abort_waiting`; the item first is one of the three lemmas above. -/
theorem abortAndItemInEitherOrder : Obligations.AbortAndItemInEitherOrder := by
  intro s r it more rest hinv hr hrx
  have hlt := hinv.flen_lt hr
  have hflen : s.flen.toNat + 1 = (s.flen + 1).toNat := by bv_omega
  simp only [hflen, ofNat_toNat_eq_zext32, BitVec.toNat_inj, ne_eq]
  refine ⟨fun hs => ⟨_, step_abort_waiting hr hs, rfl, rfl, rfl, rfl, rfl⟩, fun hs => ?_⟩
  cases it with
  | err =>
    obtain ⟨t, ht, hu, hidle, htrx, hfailed, htflen, hresults⟩ := err_then_abort hr hs hrx
    exact ⟨t, _, ht, hu, hidle, htrx, fun _ => ⟨rfl, hfailed, htflen, hresults⟩, nofun⟩
  | byte b =>
    by_cases hlast : s.flen + 1 = r.target
    · obtain ⟨t, ht, hu, hidle, htrx, htflen, hresults⟩ := last_byte_then_abort hr hs hinv hrx hlast
      exact ⟨t, _, ht, hu, hidle, htrx, nofun,
        fun _ _ => ⟨htflen, fun _ => ⟨rfl, hresults⟩, fun hne => absurd hlast hne⟩⟩
    · obtain ⟨t, u, ht, hu, hidle, hurx, huflen, hresults⟩ := byte_then_abort hr hs hinv hrx hlast
      exact ⟨t, u, ht, hu, hidle, hurx, nofun,
        fun _ _ => ⟨huflen, fun heq => absurd heq hlast, fun _ => hresults⟩⟩

end Sys2Proof.Machine
end

section
/-! The channel condition of an operation (60_exceptions.md R222, R224): NotOpen on a closed channel, ShortRead(0) on a
failed one; and how long a channel stays failed (R240). -/

namespace Sys2Proof.Machine

variable {s t : State}

/-! ## READ, QUERY and GETEMIS (40_transport.md R135, R136, R138) -/

theorem ifOpened_closed {w : Word} {body : Out} (hc : s.chstate = .closed) : ifOpened w s body = fail .notOpen w s := by
  simp only [ifOpened, hc]

theorem ifOpened_failed {w : Word} {body : Out} (hc : s.chstate = .failed) :
    ifOpened w s body = fail .shortRead 0 s := by
  simp only [ifOpened, hc]

/-- The instructions that start a receive do so under the channel condition, with their own word. -/
theorem exec_receive_eq_ifOpened {i : Instr}
    (hi : (∃ n, i = .read n) ∨ (∃ wop wpl len, i = .query wop wpl len) ∨ i = .getemis) (hwf : i.wellFormed = true)
    (s : State) : ∃ body, exec i s = ifOpened (encode i) s body := by
  rcases hi with ⟨n, rfl⟩ | ⟨wop, wpl, len, rfl⟩ | rfl
  · exact ⟨_, if_pos (of_decide_eq_true hwf : n ≤ 1544)⟩
  · exact ⟨_, rfl⟩
  · exact ⟨_, rfl⟩

theorem exec_receive_failed {i : Instr} (hc : s.chstate = .failed)
    (hi : (∃ n, i = .read n) ∨ (∃ wop wpl len, i = .query wop wpl len) ∨ i = .getemis) (hwf : i.wellFormed = true) :
    exec i s = fail .shortRead 0 s := by
  obtain ⟨body, hexec⟩ := exec_receive_eq_ifOpened hi hwf s
  rw [hexec, ifOpened_failed hc]

/-- Settles O28: SEND tests the channel itself, and the others are under the channel condition. -/
theorem channelOperationsInClosedRaiseNotOpen : Obligations.ChannelOperationsInClosedRaiseNotOpen := by
  intro s i hc hidle hwf hi
  have hfail : exec i s = fail .notOpen (encode i) s := by
    rcases hi with ⟨wop, wpl, rfl⟩ | hi
    · exact if_pos hc
    · obtain ⟨body, hexec⟩ := exec_receive_eq_ifOpened (or_left_comm.1 hi) hwf s
      rw [hexec, ifOpened_closed hc]
  rw [hfail, fail_idle hidle]
  rfl

/-- Settles O17: an `err` item is `takeItem_err`, FAILED is the channel condition, and without an item there is nothing
to take. -/
theorem shortReadOnAnErrItemOrInFailed : Obligations.ShortReadOnAnErrItemOrInFailed := by
  refine ⟨fun s r more hr hrx hs => ?_, fun s i hc hidle hwf hi => ?_, fun s r hr hrx hs => ?_⟩
  · rw [step_waiting hr hs, takeItem_err hrx, ofNat_toNat_eq_zext32]
    rfl
  · rw [exec_receive_failed hc hi hwf, fail_idle hidle]
    rfl
  · rw [step_waiting hr hs, takeItem_empty hrx]

/-! ## FAILED (R240, 10_state.md R31) -/

/-- The engine is idle in `t` with the buffer of `s`. -/
def IdleWithBuffer (s t : State) : Prop := t.rxop = none ∧ t.fb = s.fb ∧ t.flen = s.flen

/-- On a failed channel no instruction starts a receive, and none binds a new stream. -/
theorem exec_failed {i : Instr} (hc : s.chstate = .failed) (hidle : s.rxop = none) (hwf : i.wellFormed = true)
    (h : exec i s = .next t) : IdleWithBuffer s t ∧ t.rx = s.rx := by
  have hframe := exec_frame hidle h
  constructor
  · rcases hframe.buffer with ⟨hfb, hflen, hrxop⟩ | hi
    · exact ⟨hrxop, hfb, hflen⟩
    · rw [exec_receive_failed hc hi hwf, fail_next] at h
      subst h
      exact ⟨rfl, rfl, rfl⟩
  · rcases hframe.stream with ⟨hrx, -, -⟩ | rfl
    · exact hrx
    · rw [exec, execOpen_in_use (by simp [hc]), fail_next] at h
      subst h
      rfl

theorem engineTurn_failed (hc : s.chstate = .failed) (hidle : s.rxop = none) (h : (engineTurn s).outcome = .next t) :
    IdleWithBuffer s t ∧ t.rx = s.rx := by
  rcases engineTurn_next h with hmove | ⟨w, i, -, -, hdec, hexec⟩ | ⟨w, e, -, -, -, rfl⟩
  · rcases engineMove_next hmove with ⟨-, rfl⟩ | ⟨r, hr, -⟩
    · exact ⟨⟨hidle, rfl, rfl⟩, rfl⟩
    · simp [hidle] at hr
  · exact (exec_failed (s := { s with held := none }) hc hidle (wellFormed_encode_of_decodeWire hdec).1 hexec :)
  · exact ⟨⟨hidle, rfl, rfl⟩, rfl⟩

/-- An idle engine on a failed channel stays idle until reset, keeps its buffer, and takes nothing from RX. -/
theorem step_failed (hc : s.chstate = .failed) (hidle : s.rxop = none) (hreset : s.sched.head? ≠ some .reset)
    (h : step s = .next t) : IdleWithBuffer s t ∧ (t.rx = s.rx ∨ ∃ it, t.rx = s.rx ++ [it]) := by
  rcases step_next h with ⟨-, hturn⟩ | ⟨rest, -, hturn⟩ | ⟨it, rest, -, rfl⟩ | ⟨rest, hs, -⟩ | ⟨rest, hs, -⟩ |
    ⟨w, rest, -, hwait, -⟩ | ⟨w, i, rest, -, -, hdec, hexec⟩ | ⟨w, e, rest, -, -, -, rfl⟩
  · exact (engineTurn_failed hc hidle hturn).imp_right .inl
  · exact (engineTurn_failed (s := { s with sched := rest }) hc hidle hturn).imp_right .inl
  · exact ⟨⟨hidle, rfl, rfl⟩, .inr ⟨it, rfl⟩⟩
  · obtain rfl := Host.Outcome.next.inj ((step_abort_idle hidle hs).symm.trans h)
    exact ⟨⟨hidle, rfl, rfl⟩, .inl rfl⟩
  · simp [hs] at hreset
  · simp [State.waiting, hidle] at hwait
  · exact (exec_failed (s := { s with sched := rest }) hc hidle (wellFormed_of_decodeHost hdec) hexec).imp_right .inl
  · exact ⟨⟨rfl, rfl, rfl⟩, .inl rfl⟩

/-- A step from an idle engine on a failed channel leaves it failed, but for CLOSE, SHUTDOWN and reset: no other row of
R31's table starts from FAILED. -/
theorem step_failed_chstate (hc : s.chstate = .failed) (hidle : s.rxop = none) (h : step s = .next t)
    (hreset : s.sched.head? ≠ some .reset) (hclose : s.sched.head? ≠ some (.word 0x02000000))
    (hshutdown : s.sched.head? ≠ some (.word 0x0B000000)) : t.chstate = .failed := by
  by_contra hne
  rcases step_chstate h (by rwa [hc]) with ⟨hclosed, -⟩ | ⟨-, -, hwait, -⟩ | ⟨-, -, hword⟩ | ⟨-, hs⟩
  · simp [hc] at hclosed
  · simp [State.waiting, hidle] at hwait
  · exact hword.elim hclose hshutdown
  · exact hreset hs

/-- Settles O29: `step_failed_chstate` for the channel, `step_failed` for the rest. -/
theorem failedLastsUntilClosed : Obligations.FailedLastsUntilClosed := by
  intro s t hc hidle h hreset hclose hshutdown
  obtain ⟨⟨hrxop, hfb, hflen⟩, hrx⟩ := step_failed hc hidle hreset h
  exact ⟨step_failed_chstate hc hidle h hreset hclose hshutdown, hrxop, hfb, hflen, hrx⟩

end Sys2Proof.Machine
end

section
/-! Fault entry (60_exceptions.md R220, R236), and the reads of state that has no value (R226). -/

namespace Sys2Proof.Machine

variable {s : State}

/-! ## Fault entry (R220, R236) -/

/-- Settles O51: each of the seven pairs is a fault and its code, and `setEflag_getLsbD` says what becomes of EFLAGS. -/
theorem faultEntryDoesExactlyThis : Obligations.FaultEntryDoesExactlyThis := by
  intro s info f k hf
  obtain rfl : k = f.code := by
    simp only [List.mem_cons, Prod.mk.injEq, List.not_mem_nil, or_false] at hf
    rcases hf with ⟨rfl, rfl⟩ | ⟨rfl, rfl⟩ | ⟨rfl, rfl⟩ | ⟨rfl, rfl⟩ | ⟨rfl, rfl⟩ | ⟨rfl, rfl⟩ | ⟨rfl, rfl⟩ <;> rfl
  exact ⟨rfl, fun n hn => setEflag_getLsbD f s.eflags hn⟩

/-! ## NoValidData (R226) -/

theorem execNorm_undecoded (hd : s.decoded = none) : execNorm s = fail .noValidData (encode .norm) s := by
  rw [execNorm, hd]

theorem execSetlo_undecoded (hd : s.decoded = none) (lo : Sample) :
    execSetlo lo s = fail .noValidData (encode (.setlo lo)) s := by
  rw [execSetlo, hd]

theorem execSethi_undecoded (hd : s.decoded = none) (hi : Sample) :
    execSethi hi s = fail .noValidData (encode (.sethi hi)) s := by
  rw [execSethi, hd]

theorem execRds_undecoded {k : Half} (hk : k.toNat < 768) (hd : s.decoded = none) :
    execRds k s = fail .noValidData (encode (.rds k)) s := by
  rw [execRds_inRange hk, readSample, hd]; rfl

theorem execRdg_no_grid {k : Half} (hk : k.toNat < 768) (hg : s.grid = none) :
    execRdg k s = fail .noValidData (encode (.rdg k)) s := by
  rw [execRdg_inRange hk, readCell, hg]; rfl

/-- Settles O48: RDREG and RDFB are the NoValidData cases of R210 and R211; the others are the lemmas above, and what
NoValidData is at an idle engine. -/
theorem readingUnwrittenStateRaisesNoValidData : Obligations.ReadingUnwrittenStateRaisesNoValidData := by
  intro s i hidle hwf hi
  have noData (w : Word) := fail_idle hidle .noValidData w
  obtain ⟨-, -, hrdreg, -, hrdregEmis, -⟩ := rdregReturnsEachRegister s hidle
  rcases hi with ⟨hsvalid, hi⟩ | ⟨hgvalid, k, rfl⟩ | ⟨hevalid, rfl⟩ | ⟨a, hle, rfl⟩
  · have hd : s.decoded = none := by simpa [State.svalid] using hsvalid
    obtain ⟨h5, h6, h7, h8, h9⟩ := hrdreg hd
    rcases hi with rfl | ⟨lo, rfl⟩ | ⟨hi, rfl⟩ | ⟨k, rfl⟩ | rfl | rfl | rfl | rfl | rfl
    · exact (execNorm_undecoded hd).trans (noData _)
    · exact (execSetlo_undecoded hd lo).trans (noData _)
    · exact (execSethi_undecoded hd hi).trans (noData _)
    · have hk : k.toNat < 768 := Nat.lt_succ_of_le (of_decide_eq_true hwf : k ≤ 767)
      exact (execRds_undecoded hk hd).trans (noData _)
    · exact h5
    · exact h6
    · exact h7
    · exact h8
    · exact h9
  · have hg : s.grid = none := by simpa [State.gvalid] using hgvalid
    have hk : k.toNat < 768 := Nat.lt_succ_of_le (of_decide_eq_true hwf : k ≤ 767)
    exact (execRdg_no_grid hk hg).trans (noData _)
  · exact hrdregEmis (by simpa [State.evalid] using hevalid)
  · obtain ⟨-, hbeyond, -⟩ := rdfbReturnsTheByteBelowFlen s a hidle
    exact hbeyond (of_decide_eq_true hwf) hle

end Sys2Proof.Machine
end

section
/-! What every transition reports to the host: one result for each operation word, in order (30_encoding.md R108,
60_exceptions.md R246), and no change of the fault registers but by a fault reported (R239). -/

namespace Sys2Proof.Machine

variable {s t u : State}

/-! ## What a transition reports -/

/-- The three fault registers together (10_state.md R36 to R38). -/
def State.faultRegs (s : State) : Byte × Word × Byte := (s.ecause, s.einfo, s.eflags)

@[simp] theorem State.sendIfOpen_faultRegs (wop wpl : Byte) (s : State) :
    (s.sendIfOpen wop wpl).faultRegs = s.faultRegs := by
  simp [State.faultRegs]

/-- What a transition from `s` to `t` reports to the host; the Boolean says whether there is an operation for it to
report on: one in progress, or one whose word it accepts. Without a report that operation goes on. -/
inductive Report (s t : State) : Bool → Prop
  | silent {busy : Bool} (hregs : t.faultRegs = s.faultRegs) (hresults : t.results = s.results)
      (hwait : t.waiting = busy) : Report s t busy
  | done (v : Word) (hregs : t.faultRegs = s.faultRegs) (hresults : t.results = s.results ++ [⟨0, v⟩])
      (hidle : t.rxop = none) : Report s t true
  | fault (f : EngineFault) (info : Word) (hregs : t.faultRegs = (f.code, info, setEflag f s.eflags))
      (hresults : t.results = s.results ++ [⟨f.code, info⟩]) (hidle : t.rxop = none) : Report s t true

namespace Report

theorem raise (s : State) (f : EngineFault) (info : Word) : Report s (s.raise f info) true := .fault f info rfl rfl rfl

theorem respond (hidle : s.rxop = none) (v : Word) : Report s (s.respond ⟨0, v⟩) true := .done v rfl rfl hidle

/-- A report is on the fault registers and the results alone. -/
theorem of_start {busy : Bool} (h : Report u t busy) (hregs : u.faultRegs = s.faultRegs)
    (hresults : u.results = s.results) : Report s t busy := by
  have heflags : u.eflags = s.eflags := congrArg (fun regs => regs.2.2) hregs
  cases h with
  | silent hr hres hwait => exact .silent (hr.trans hregs) (hres.trans hresults) hwait
  | done v hr hres hidle => exact .done v (hr.trans hregs) (by rw [hres, hresults]) hidle
  | fault f info hr hres hidle => exact .fault f info (by rw [hr, heflags]) (by rw [hres, hresults]) hidle

end Report

/-! ## The receive procedure (40_transport.md R137) -/

theorem completeReceive_report {k : RxKind} (h : completeReceive k s = .next t) : Report s t true := by
  rcases completeReceive_next h with ⟨-, rfl⟩ | ⟨-, b, -, rfl⟩ <;> exact .done _ rfl rfl rfl

/-- The start of a receive ends it at once, or leaves it in progress. -/
theorem startReceive_report {n : Count} {k : RxKind} (h : startReceive n k s = .next t) : Report s t true := by
  rcases startReceive_next h with ⟨-, hc⟩ | ⟨-, rfl⟩
  · exact (completeReceive_report hc).of_start rfl rfl
  · exact .silent rfl rfl rfl

/-- A receive under the channel condition, a packet perhaps sent before it. -/
theorem ifOpened_startReceive_report {w : Word} {n : Count} {k : RxKind} (hu : u = { s with tx := u.tx })
    (h : ifOpened w s (startReceive n k u) = .next t) : Report s t true := by
  rcases ifOpened_next h with ⟨-, rfl⟩ | ⟨-, rfl⟩ | ⟨-, hr⟩
  · exact .raise s _ _
  · exact .raise s _ _
  · exact (startReceive_report hr).of_start (by rw [hu]; rfl) (by rw [hu])

theorem storeByte_report {r : Receive} {b : Byte} (hr : s.rxop = some r) (h : storeByte r b s = .next t) :
    Report s t true := by
  obtain ⟨-, ⟨-, hc⟩ | ⟨-, rfl⟩⟩ := storeByte_next h
  · exact (completeReceive_report hc).of_start rfl rfl
  · exact .silent rfl rfl (by simp [State.waiting, hr])

theorem takeItem_report {r : Receive} (hr : s.rxop = some r) (h : takeItem r s = .next t) : Report s t true := by
  rcases takeItem_next h with ⟨-, rfl⟩ | ⟨b, rest, -, hb⟩ | ⟨rest, -, rfl⟩
  · exact .silent rfl rfl (by simp [State.waiting, hr])
  · exact (storeByte_report (s := { s with rx := rest }) hr hb).of_start rfl rfl
  · exact .fault _ _ rfl rfl rfl

theorem engineMove_report (h : engineMove s = .next t) : Report s t s.waiting := by
  rcases engineMove_next h with ⟨-, rfl⟩ | ⟨r, hr, ht⟩
  · exact .silent rfl rfl rfl
  · have hwait : s.waiting = true := by simp [State.waiting, hr]
    rw [hwait]
    exact takeItem_report hr ht

/-! ## The instructions -/

theorem readout_report {i : Instr} (hidle : s.rxop = none)
    (hi : (∃ r, i = .rdreg r) ∨ (∃ a, i = .rdfb a) ∨ (∃ k, i = .rds k) ∨ ∃ k, i = .rdg k)
    (h : exec i s = .next t) : Report s t true := by
  rcases readout_cases hi h with ⟨x, rfl⟩ | rfl | rfl
  · exact .respond hidle x
  · exact .raise s _ _
  · exact .raise s _ _

/-- An idle engine reports on every host operation, or goes on with its receive; a packet is no operation (R108). -/
theorem exec_report {i : Instr} (hidle : s.rxop = none) (h : exec i s = .next t) : Report s t i.isHostOp := by
  cases i with
  | openCh =>
    rcases execOpen_next h with ⟨-, rfl⟩ | ⟨-, rfl⟩ | ⟨-, offered, -, rfl⟩
    · exact .raise s _ _
    · exact .fault _ _ rfl rfl rfl
    · exact .done _ rfl rfl hidle
  | close => cases h; exact .done _ rfl rfl hidle
  | send wop wpl =>
    rcases execSend_next h with ⟨-, rfl⟩ | ⟨-, rfl⟩
    · exact .raise s _ _
    · exact .done _ rfl rfl hidle
  | query wop wpl len => exact ifOpened_startReceive_report rfl h
  | getemis => exact ifOpened_startReceive_report rfl h
  | read n =>
    rcases execRead_next h with ⟨-, rfl⟩ | ⟨-, hr⟩
    · exact .raise s _ _
    · exact ifOpened_startReceive_report rfl hr
  | decode =>
    rcases execDecode_next h with ⟨-, rfl⟩ | ⟨-, amb, v, -, -, rfl⟩
    · exact .fault _ _ rfl rfl rfl
    · exact .done _ rfl rfl hidle
  | norm =>
    rcases execNorm_next h with ⟨-, rfl⟩ | ⟨d, -, rfl⟩
    · exact .raise s _ _
    · exact .done _ rfl rfl hidle
  | setlo lo =>
    rcases execSetlo_next h with ⟨-, rfl⟩ | ⟨d, -, rfl⟩
    · exact .raise s _ _
    · exact .done _ rfl rfl hidle
  | sethi hi =>
    rcases execSethi_next h with ⟨-, rfl⟩ | ⟨d, -, rfl⟩
    · exact .raise s _ _
    · exact .done _ rfl rfl hidle
  | shutdown =>
    cases h
    exact .done 0 (s.sendIfOpen_faultRegs _ _) (by simp) (by simpa using hidle)
  | rdreg r => exact readout_report hidle (.inl ⟨r, rfl⟩) h
  | rdfb a => exact readout_report hidle (.inr (.inl ⟨a, rfl⟩)) h
  | rds k => exact readout_report hidle (.inr (.inr (.inl ⟨k, rfl⟩))) h
  | rdg k => exact readout_report hidle (.inr (.inr (.inr ⟨k, rfl⟩))) h
  | wQemis | wSetfps8 | wStart | wStop | wCmd =>
    cases h
    exact .silent (s.sendIfOpen_faultRegs _ _) (s.sendIfOpen_results _ _)
      (by simp [State.waiting, hidle, Instr.isHostOp])

/-! ## The step -/

theorem engineMove_sched (h : engineMove s = .next t) : t.sched = s.sched := by
  rcases engineMove_next h with ⟨-, rfl⟩ | ⟨r, -, hr⟩
  · rfl
  · rw [takeItem_writes hr]

/-- The engine by itself reports on the operation in progress, and leaves the schedule as it is. -/
theorem engineTurn_report (h : (engineTurn s).outcome = .next t) : Report s t s.waiting ∧ t.sched = s.sched := by
  rcases engineTurn_next h with hmove | ⟨w, i, hidle, -, hdec, hexec⟩ | ⟨w, e, -, -, -, rfl⟩
  · exact ⟨engineMove_report hmove, engineMove_sched hmove⟩
  · have hbusy : i.isHostOp = s.waiting := by rw [decodeWire_isHostOp hdec]; simp [State.waiting, hidle]
    rw [← hbusy]
    exact ⟨(exec_report (s := { s with held := none }) hidle hexec).of_start rfl rfl,
      (exec_frame (s := { s with held := none }) hidle hexec).sched⟩
  · exact ⟨.silent rfl rfl rfl, rfl⟩

theorem abort_report (s : State) : Report s s.abort s.waiting := by
  cases hr : s.rxop with
  | none => rw [State.abort_idle s hr]; exact .silent rfl rfl rfl
  | some r =>
    have hwait : s.waiting = true := by simp [State.waiting, hr]
    rw [State.abort_waiting s hr, hwait]
    exact .raise s _ _

@[simp] theorem State.abort_sched (s : State) : s.abort.sched = s.sched := by
  cases hr : s.rxop with
  | none => rw [State.abort_idle s hr]
  | some r => rw [State.abort_waiting s hr, State.raise_sched]

/-- The operations in progress and the words still to be issued (R246). -/
def pending (s : State) : Nat := s.waiting.toNat + s.sched.countP Move.isWord

theorem pending_of_word {w : Word} {rest : List Move} (hs : s.sched = .word w :: rest) (hidle : s.waiting = false) :
    pending s = true.toNat + rest.countP Move.isWord := by
  rw [pending, hs, hidle, List.countP_cons_of_pos rfl, Nat.add_comm (rest.countP _)]
  exact Nat.zero_add _

theorem pending_of_not_word {mv : Move} {rest : List Move} (hs : s.sched = mv :: rest) (hmv : mv.isWord = false) :
    pending s = s.waiting.toNat + rest.countP Move.isWord := by
  rw [pending, hs, List.countP_cons_of_neg (by simp [hmv])]

/-- A step that is no reset reports on one operation at most, which was pending before it. -/
theorem step_report (h : step s = .next t) (hreset : s.sched.head? ≠ some .reset) :
    ∃ busy, Report s t busy ∧ pending s = busy.toNat + t.sched.countP Move.isWord := by
  rcases step_next h with ⟨-, hturn⟩ | ⟨rest, hs, hturn⟩ | ⟨it, rest, hs, rfl⟩ | ⟨rest, hs, rfl⟩ | ⟨rest, hs, -⟩ |
    ⟨w, rest, -, -, hmove⟩ | ⟨w, i, rest, hs, hidle, hdec, hexec⟩ | ⟨w, e, rest, hs, hidle, -, rfl⟩
  · obtain ⟨hreport, hsched⟩ := engineTurn_report hturn
    exact ⟨_, hreport, by rw [hsched, pending]⟩
  · obtain ⟨hreport, hsched⟩ := engineTurn_report hturn
    exact ⟨s.waiting, hreport.of_start rfl rfl, by rw [hsched, pending_of_not_word hs rfl]⟩
  · exact ⟨s.waiting, .silent rfl rfl rfl, pending_of_not_word hs rfl⟩
  · exact ⟨s.waiting, (abort_report _).of_start rfl rfl, by rw [State.abort_sched, pending_of_not_word hs rfl]⟩
  · simp [hs] at hreset
  · exact ⟨_, engineMove_report hmove, by rw [engineMove_sched hmove, pending]⟩
  · have hrx : State.rxop { s with sched := rest } = none := State.rxop_of_waiting_false hidle
    have hreport := exec_report hrx hexec
    rw [decodeHost_isHostOp hdec] at hreport
    exact ⟨true, hreport.of_start rfl rfl, by rw [(exec_frame hrx hexec).sched, pending_of_word hs hidle]⟩
  · exact ⟨true, .fault _ _ rfl rfl rfl, pending_of_word hs hidle⟩

/-- Settles O14: the operation reported on either gets its result or is still in progress. -/
theorem everyWordGetsOneResult : Obligations.EveryWordGetsOneResult := by
  intro s t h hreset
  obtain ⟨busy, hreport, hpending⟩ := step_report h hreset
  have hbefore : accounted s = s.results.length + (busy.toNat + t.sched.countP Move.isWord) := by
    rw [← hpending, pending, ← Nat.add_assoc, accounted]
  rw [hbefore, accounted]
  cases hreport with
  | silent hregs hresults hwait => exact ⟨by rw [hresults, hwait, Nat.add_assoc], .inl hresults⟩
  | done v hregs hresults hidle | fault f info hregs hresults hidle =>
    exact ⟨by simp [hresults, State.waiting, hidle, Nat.add_assoc], .inr ⟨_, hresults⟩⟩

/-! ## The fault registers (R239) -/

theorem State.faultRegs_eq_iff {cause : Byte} {info : Word} {flags : Byte} :
    s.faultRegs = (cause, info, flags) ↔ s.ecause = cause ∧ s.einfo = info ∧ s.eflags = flags := by
  simp [State.faultRegs]

/-- Without a fault the registers stay and the result, if there is one, has code 0; a fault is handed over as it stands
in the registers. -/
theorem Report.registers {busy : Bool} (h : Report s t busy) :
    (t.ecause = s.ecause ∧ t.einfo = s.einfo ∧ t.eflags = s.eflags ∧
      (t.results = s.results ∨ ∃ v, t.results = s.results ++ [⟨0, v⟩])) ∨
    (t.ecause ≠ 0 ∧ t.results = s.results ++ [⟨t.ecause, t.einfo⟩] ∧
      t.eflags = s.eflags ||| ((1 : Byte) <<< t.ecause.toNat)) := by
  cases h with
  | silent hregs hresults hwait =>
    obtain ⟨hcause, hinfo, hflags⟩ := State.faultRegs_eq_iff.1 hregs
    exact .inl ⟨hcause, hinfo, hflags, .inl hresults⟩
  | done v hregs hresults hidle =>
    obtain ⟨hcause, hinfo, hflags⟩ := State.faultRegs_eq_iff.1 hregs
    exact .inl ⟨hcause, hinfo, hflags, .inr ⟨v, hresults⟩⟩
  | fault f info hregs hresults hidle =>
    obtain ⟨hcause, hinfo, hflags⟩ := State.faultRegs_eq_iff.1 hregs
    rw [hcause, hinfo]
    exact .inr ⟨f.code_ne_zero, hresults, hflags⟩

/-- No bit of EFLAGS is cleared. -/
theorem Report.eflags {busy : Bool} (h : Report s t busy) : ∃ flags, t.eflags = s.eflags ||| flags := by
  rcases h.registers with ⟨-, -, hflags, -⟩ | ⟨-, -, hflags⟩
  · exact ⟨0, by simp [hflags]⟩
  · exact ⟨_, hflags⟩

theorem step_reset {rest : List Move} (hs : s.sched = .reset :: rest) :
    step s = .next (State.restart { s with sched := rest }) := by
  simp only [step, fetch, hs, Fetched.outcome_moved]

/-- Settles O52: `Report.registers` and `Report.eflags` for every step but reset, which clears the three registers. -/
theorem onlyResetClearsTheFaultRegisters : Obligations.OnlyResetClearsTheFaultRegisters := by
  intro s t h
  constructor
  · intro hreset
    obtain ⟨busy, hreport, -⟩ := step_report h hreset
    obtain ⟨flags, hflags⟩ := hreport.eflags
    refine ⟨fun n hn => ?_, fun hfree => ?_, hreport.registers⟩
    · rw [hflags, BitVec.getLsbD_or, hn, Bool.true_or]
    · rw [FaultFree, hflags] at hfree
      exact (BitVec.or_eq_zero_iff.1 hfree).1
  · intro hreset
    obtain ⟨rest, hs⟩ := List.head?_eq_some_iff.1 hreset
    obtain rfl := Host.Outcome.next.inj ((step_reset hs).symm.trans h)
    exact ⟨rfl, rfl, rfl⟩

end Sys2Proof.Machine
end

section
/-! Reset in any state and phase (70_reset_and_hazards.md R260), and SHUTDOWN against SEND and CLOSE (R265). -/

namespace Sys2Proof.Machine

variable {s : State}

/-! ## Reset (R260, 10_state.md R44) -/

@[simp] theorem State.restart_svalid : s.restart.svalid = false := rfl
@[simp] theorem State.restart_gvalid : s.restart.gvalid = false := rfl
@[simp] theorem State.restart_evalid : s.restart.evalid = false := rfl

/-- Settles O13: the step of a reset move is `State.restart`, whatever the phase, and its lemmas give every field. -/
theorem resetFromAnyState : Obligations.ResetFromAnyState := by
  intro s rest hs
  exact ⟨_, step_reset hs, by simp [Memory.read]⟩

/-! ## SHUTDOWN (R265, 40_transport.md R146) -/

/-- CLOSE is one record update and one result, in every channel state (R132). -/
theorem exec_close (s : State) :
    exec .close s = .next { s with chstate := .closed, results := s.results ++ [⟨0, 0⟩] } :=
  (closeIsIdempotent s).1

/-- On a channel that is not closed, SHUTDOWN closes the state that SEND of the stop packet leaves. -/
theorem exec_shutdown_not_closed (hc : s.chstate ≠ .closed) :
    ∃ u, exec (.send 0x35 0x01) s = .next u ∧ exec .shutdown s = .next { u with chstate := .closed } := by
  refine ⟨_, execSend_not_closed _ _ hc, ?_⟩
  rw [exec, execShutdown, State.sendIfOpen_not_closed _ _ hc]
  rfl

/-- Settles O27: SHUTDOWN leaves the closed state of its SEND, to which CLOSE adds a result; on a closed channel the SEND
is the NotOpen of R224. -/
theorem shutdownIsSendStopThenClose : Obligations.ShutdownIsSendStopThenClose := by
  intro s
  constructor
  · intro hc
    obtain ⟨u, hsend, hshutdown⟩ := exec_shutdown_not_closed hc
    exact ⟨_, u, _, hshutdown, hsend, exec_close u, rfl⟩
  · intro hc hidle
    have hsend := channelOperationsInClosedRaiseNotOpen s (.send 0x35 0x01) hc hidle rfl (.inl ⟨_, _, rfl⟩)
    have hword : encode (.send 0x35 0x01) = 0x03350100 := by decide
    rw [hword] at hsend
    exact ⟨_, hsend, rfl, rfl⟩

end Sys2Proof.Machine
end
